-- ==== Sys2Proof/Word.lean ====
section
/-! DEFINITION. The widths of the FrameCodec's values: bytes, the 16-bit length, the 17-bit
position counters and the 32-bit command and result words of the host port. -/

namespace Sys2Proof

/-- A byte, 0..255, bit 7 most significant (R6). -/
abbrev Byte := BitVec 8

/-- The 16-bit payload length (R13, R61). -/
abbrev Half := BitVec 16

/-- A byte-position counter of 17 bits: `tx_idx` and `rx_count` (R14, R18). -/
abbrev Count := BitVec 17

/-- A command word or a result word of the host port (R46, R75). -/
abbrev Word := BitVec 32

end Sys2Proof
end

