-- ==== Sys2Proof/Config.lean ====
section
/-! DEFINITION. The configuration record of R4: the constants the spec leaves OPEN, the constraints
it puts on them, and the machine's own configuration, whose values nothing can see. -/

namespace Sys2Proof

/-- The three RSSI curves, in the order of their select codes 0, 1, 2 (R77). -/
inductive Curve
  | linear | curved | custom
  deriving DecidableEq, Repr

/-- The curve meant where the written syntax names none: "`curved` (default)" (R5, R80, R152). -/
def Curve.default : Curve := .curved

/-- The implementation parameters of R4. Signed values (`rssiMin`, `rssiMax` and the table entries)
are held as 8-bit two's complement, which is the range R4 gives them. -/
structure Config where
  /-- `HEADER`, frame byte 0. -/
  header : Byte
  /-- `TYPE`, the type byte the encoder emits. -/
  typeByte : Byte
  /-- `TRAILER`, the last frame byte; it may equal `HEADER`. -/
  trailer : Byte
  cmdInventory : Byte
  cmdMultiPoll : Byte
  cmdStopMulti : Byte
  cmdSelect : Byte
  cmdRead : Byte
  cmdWrite : Byte
  cmdError : Byte
  /-- `RSSI_MIN`, two's complement. -/
  rssiMin : Byte
  /-- `RSSI_MAX`, two's complement. -/
  rssiMax : Byte
  /-- `RSSI_TABLE[0]`. -/
  linear : Vector Byte 256
  /-- `RSSI_TABLE[1]`. -/
  curved : Vector Byte 256
  /-- `RSSI_TABLE[2]`, a third ROM table (R156). -/
  custom : Vector Byte 256
  deriving DecidableEq, Repr

/-- The seven named command codes (R70), in the table's order. -/
def Config.commands (cfg : Config) : List Byte :=
  [cfg.cmdInventory, cfg.cmdMultiPoll, cfg.cmdStopMulti, cfg.cmdSelect, cfg.cmdRead, cfg.cmdWrite,
    cfg.cmdError]

/-- `RSSI_TABLE[c]` (R22). -/
def Config.table (cfg : Config) : Curve → Vector Byte 256
  | .linear => cfg.linear
  | .curved => cfg.curved
  | .custom => cfg.custom

/-- The signed value of table entry `r` of curve `c`: `Table(c, r)` of R43. -/
def Config.entry (cfg : Config) (c : Curve) (r : Byte) : Int :=
  ((cfg.table c)[r.toNat]'r.isLt).toInt

/-- The constraints R4 puts on a configuration. -/
structure Config.Valid (cfg : Config) : Prop where
  /-- The seven command codes are pairwise distinct. -/
  commandsDistinct : cfg.commands.Nodup
  /-- `RSSI_MIN <= RSSI_MAX`. -/
  band : cfg.rssiMin.toInt ≤ cfg.rssiMax.toInt
  /-- Each table is non-decreasing from one entry to the next. -/
  monotone : ∀ (c : Curve) (r : Byte), r.toNat < 255 → cfg.entry c r ≤ cfg.entry c (r + 1)

/-! ## The machine's own configuration

DESIGN CHOICE (log entry 2), safe: the four constants below have no body, so no proof can use a
value the spec does not give. -/

/-- Free bytes: 0 `HEADER`, 1 `TYPE`, 2 `TRAILER`, 3 and 4 the two ends of the RSSI band. -/
opaque Config.openByte : Nat → Byte

/-- Free command codes: command number `k` of R70's table is the image of `k`, so the seven are
distinct and otherwise arbitrary. -/
opaque Config.openCommand : Equiv.Perm Byte

/-- Free table entries, by curve number and index, before `Config.rising` makes a table
non-decreasing. -/
opaque Config.openEntry : Nat → Nat → Byte

/-- What cell `k` of `rx_pay` holds at power-up: "unspecified" (R25, R211; log entry 6). -/
opaque Config.powerUpPay : Nat → Byte

/-- The signed larger of two bytes. -/
def Config.signedMax (a b : Byte) : Byte := if a.toInt ≤ b.toInt then b else a

/-- The signed smaller of two bytes. -/
def Config.signedMin (a b : Byte) : Byte := if a.toInt ≤ b.toInt then a else b

/-- The largest of `f 0 .. f n`: non-decreasing in `n` for every `f`, and `f` itself where `f` is
already non-decreasing, so that every table R4 allows is of this form. -/
def Config.rising (f : Nat → Byte) : Nat → Byte
  | 0 => f 0
  | n + 1 => Config.signedMax (Config.rising f n) (f (n + 1))

/-- The table that the free entries of curve number `c` give. -/
def Config.risingTable (c : Nat) : Vector Byte 256 :=
  Vector.ofFn fun i => Config.rising (Config.openEntry c) i.val

/-- The configuration the machine is built with (R4, R21): any record that R4 allows. -/
def Config.hardwired : Config where
  header := Config.openByte 0
  typeByte := Config.openByte 1
  trailer := Config.openByte 2
  cmdInventory := Config.openCommand 0
  cmdMultiPoll := Config.openCommand 1
  cmdStopMulti := Config.openCommand 2
  cmdSelect := Config.openCommand 3
  cmdRead := Config.openCommand 4
  cmdWrite := Config.openCommand 5
  cmdError := Config.openCommand 6
  rssiMin := Config.signedMin (Config.openByte 3) (Config.openByte 4)
  rssiMax := Config.signedMax (Config.openByte 3) (Config.openByte 4)
  linear := Config.risingTable 0
  curved := Config.risingTable 1
  custom := Config.risingTable 2

/-! ## The reference filling of R155

The spec's own choice for running examples; nothing in the model or its statements uses it. -/

/-- Reference curve linear, and custom until configured otherwise (R155). -/
def Config.refLinear (raw : Nat) : Int := -100 + ((95 * raw / 255 : Nat) : Int)

/-- Reference curve curved: a wide weak band and a narrow strong band (R154, R155). -/
def Config.refCurved (raw : Nat) : Int :=
  if raw < 128 then -100 + ((70 * raw / 128 : Nat) : Int)
  else -30 + ((25 * (raw - 128) / 127 : Nat) : Int)

/-- The ROM table that a formula gives. -/
def Config.tableOf (f : Nat → Int) : Vector Byte 256 := Vector.ofFn fun i => BitVec.ofInt 8 (f i.val)

end Sys2Proof
end

