-- ==== Sys2Proof/Syntax.lean ====
section
/-! DEFINITION. The instructions of the block, one constructor per row of spec/opcode_table.json,
and what the host can bring to the port: a command word, or one of the two frame requests of R81. -/

namespace Sys2Proof

/-- The side of the block a wire frame stands on. The TX unit always emits the type byte `TYPE`; a
received frame carries whatever type byte the peer sent (R73). -/
inductive Way
  /-- Emitted by the TX unit. -/
  | sent
  /-- Taken by the RX unit, with this type byte. -/
  | received (type : Byte)
  deriving DecidableEq, Repr

/-- The host operations of R75, the reserved operation codes of R78, the reserved curve select of
R77, and the wire frames of R60 by their command byte (R70, R71). -/
inductive Instr
  | reset
  | txbegin (cmd : Byte) (len : Half)
  | txstep (d : Byte)
  | txstat
  | rxpush (b : Byte)
  | rxclr
  | rxstat
  | rxhdr
  | rxget (k : Half)
  | rssi (curve : Curve) (raw : Byte)
  | faults
  | reservedB
  | reservedC
  | reservedD
  | reservedE
  | reservedF
  | rssiCurve3 (raw : Byte)
  | frameInventory (way : Way) (payload : List Byte)
  | frameMultiPoll (way : Way) (payload : List Byte)
  | frameStopMulti (way : Way) (payload : List Byte)
  | frameSelect (way : Way) (payload : List Byte)
  | frameRead (way : Way) (payload : List Byte)
  | frameWrite (way : Way) (payload : List Byte)
  | frameError (way : Way) (payload : List Byte)
  | frameOther (way : Way) (command : Byte) (payload : List Byte)
  deriving DecidableEq, Repr

/-- What the host brings to the port: a command word (R75), or one of the two pseudo-operations of
R81 that carry a whole frame. -/
inductive Request
  | word (w : Word)
  /-- `ENCODE c, p`. -/
  | encode (c : Byte) (p : List Byte)
  /-- `DECODE b`. -/
  | decode (b : List Byte)
  deriving DecidableEq, Repr

/-- The decoded Frame of the source (R17, N19): header, checksum and trailer of a valid frame are
determined by these three. -/
structure Frame where
  type : Byte
  command : Byte
  payload : List Byte
  deriving DecidableEq, Repr

/-- The source's `DecodeError` (R110, R180). -/
inductive DecodeError
  | incomplete | badMarker | lengthMismatch | checksumMismatch
  deriving DecidableEq, Repr

/-- Why a request is no instruction. -/
inductive Reject
  /-- A byte run that is not a valid frame (R73). -/
  | notAFrame (run : List Byte) (why : DecodeError)
  /-- More than 65535 payload bytes: outside the domain of Encode (R13, R90). -/
  | payloadTooLong
  deriving DecidableEq, Repr

end Sys2Proof
end

