-- ==== Sys2Proof/WellFormed.lean ====
section
/-! DEFINITION. Which instructions the encodings can express. The operand widths of the host
operations are in their types; a frame's payload must fit the 16-bit length field (R13, R61), and
`frameOther` stands only for a command byte that is none of the seven (R70, R71). -/

namespace Sys2Proof

/-- The longest payload the length field can declare (R5). -/
def maxPayload : Nat := 65535

/-- The payload fits the 16-bit length field (R13). -/
def payloadFits (p : List Byte) : Bool := decide (p.length ≤ maxPayload)

/-- The instruction is one that a command word or a wire frame of this configuration spells. -/
def Instr.wellFormed (cfg : Config) : Instr → Bool
  | .reset => true
  | .txbegin _ _ => true
  | .txstep _ => true
  | .txstat => true
  | .rxpush _ => true
  | .rxclr => true
  | .rxstat => true
  | .rxhdr => true
  | .rxget _ => true
  | .rssi _ _ => true
  | .faults => true
  | .reservedB => true
  | .reservedC => true
  | .reservedD => true
  | .reservedE => true
  | .reservedF => true
  | .rssiCurve3 _ => true
  | .frameInventory _ p => payloadFits p
  | .frameMultiPoll _ p => payloadFits p
  | .frameStopMulti _ p => payloadFits p
  | .frameSelect _ p => payloadFits p
  | .frameRead _ p => payloadFits p
  | .frameWrite _ p => payloadFits p
  | .frameError _ p => payloadFits p
  | .frameOther _ c p => payloadFits p && !cfg.commands.contains c

end Sys2Proof
end

