-- ==== Sys2Proof/Decode.lean ====
section
/-! DEFINITION. The two encodings of 30_encoding.md, read and written: the wire frame (R60 to R64,
with the source's `Decode` of R110 and `Encode` of R90) and the host command word (R75 to R78). -/

namespace Sys2Proof

/-! ## Byte order and sums (R6) -/

/-- `hi8(n) = n[15:8]`. -/
def hi8 (n : Half) : Byte := n.extractLsb' 8 8

/-- `lo8(n) = n[7:0]`. -/
def lo8 (n : Half) : Byte := n.extractLsb' 0 8

/-- `be16(h, l) = 256*h + l`, an unbounded integer. -/
def be16 (h l : Byte) : Nat := 256 * h.toNat + l.toNat

/-- `Sum8(s)`: the sum of all bytes modulo 256, and 0 for no bytes. -/
def sum8 : List Byte → Byte
  | [] => 0
  | b :: bs => b + sum8 bs

/-! ## The wire frame -/

/-- The part of a frame that the checksum covers, `type..payload` (R62). -/
def frameSpan (t c : Byte) (p : List Byte) : List Byte :=
  let len : Half := BitVec.ofNat 16 p.length
  [t, c, hi8 len, lo8 len] ++ p

/-- `FrameBytes(t, c, p)` of R64, for a payload of at most 65535 bytes. -/
def frameBytes (cfg : Config) (t c : Byte) (p : List Byte) : List Byte :=
  [cfg.header] ++ frameSpan t c p ++ [sum8 (frameSpan t c p), cfg.trailer]

/-- `Encode(c, p)` of R90. -/
def frameEncode (cfg : Config) (c : Byte) (p : List Byte) : List Byte :=
  frameBytes cfg cfg.typeByte c p

/-- `Decode(b)` of R110: the eight tests in their order, the first that applies decides. A default
of `getD` is never what is read: each index lies in the run by the tests before it. -/
def frameDecode (cfg : Config) (b : List Byte) : Except DecodeError Frame :=
  let len := be16 (b.getD 3 0) (b.getD 4 0)
  if b.length = 0 then .error .incomplete
  else if b.getD 0 0 ≠ cfg.header then .error .badMarker
  else if b.length < 5 then .error .incomplete
  else if b.length < len + 7 then .error .incomplete
  else if b.getD (b.length - 1) 0 ≠ cfg.trailer then .error .badMarker
  else if b.length ≠ len + 7 then .error .lengthMismatch
  else if sum8 ((b.drop 1).take (4 + len)) ≠ b.getD (5 + len) 0 then .error .checksumMismatch
  else .ok { type := b.getD 1 0, command := b.getD 2 0, payload := (b.drop 5).take len }

/-! ## The host command word (R75) -/

/-- `op` = w[31:28]. -/
def opField (w : Word) : BitVec 4 := w.extractLsb' 28 4

/-- `cmd` = w[23:16]. -/
def cmdField (w : Word) : Byte := w.extractLsb' 16 8

/-- `len` and `k` = w[15:0]. -/
def halfField (w : Word) : Half := w.extractLsb' 0 16

/-- `d`, `b` and `raw` = w[7:0]. -/
def byteField (w : Word) : Byte := w.extractLsb' 0 8

/-- `curve` = w[9:8]. -/
def curveField (w : Word) : BitVec 2 := w.extractLsb' 8 2

/-- Curve select (R77): 3 is reserved. -/
def curveOfSelect (v : BitVec 2) : Option Curve :=
  if v = 0 then some .linear
  else if v = 1 then some .curved
  else if v = 2 then some .custom
  else none

/-- The select code of a curve (R77). -/
def Curve.select : Curve → BitVec 2
  | .linear => 0
  | .curved => 1
  | .custom => 2

/-- The instruction of a command word. Every word has one: the four bits of `op` have sixteen
values, eleven operations and five reserved codes. Unused bits are ignored. -/
def decodeWord (w : Word) : Instr :=
  match (opField w).toNat with
  | 0x0 => .reset
  | 0x1 => .txbegin (cmdField w) (halfField w)
  | 0x2 => .txstep (byteField w)
  | 0x3 => .txstat
  | 0x4 => .rxpush (byteField w)
  | 0x5 => .rxclr
  | 0x6 => .rxstat
  | 0x7 => .rxhdr
  | 0x8 => .rxget (halfField w)
  | 0x9 =>
    match curveOfSelect (curveField w) with
    | some c => .rssi c (byteField w)
    | none => .rssiCurve3 (byteField w)
  | 0xA => .faults
  | 0xB => .reservedB
  | 0xC => .reservedC
  | 0xD => .reservedD
  | 0xE => .reservedE
  | _ => .reservedF

/-- A command word with all unused bits 0 (R75). -/
def hostWord (op : BitVec 4) (cmd : Byte) (half : Half) : Word := op ++ (0 : BitVec 4) ++ cmd ++ half

/-- The 16 low bits of a word whose operand is one byte. -/
def byteOperand (b : Byte) : Half := (0 : Byte) ++ b

/-- The 16 low bits of an `RSSI` word. -/
def rssiOperand (select : BitVec 2) (raw : Byte) : Half := (0 : BitVec 6) ++ select ++ raw

/-! ## Frames by the name of their command byte -/

/-- The row of the opcode table that a frame belongs to (R70); a command byte that is none of the
seven is delivered like any other (R71). -/
def nameFrame (cfg : Config) (way : Way) (c : Byte) (p : List Byte) : Instr :=
  if c = cfg.cmdInventory then .frameInventory way p
  else if c = cfg.cmdMultiPoll then .frameMultiPoll way p
  else if c = cfg.cmdStopMulti then .frameStopMulti way p
  else if c = cfg.cmdSelect then .frameSelect way p
  else if c = cfg.cmdRead then .frameRead way p
  else if c = cfg.cmdWrite then .frameWrite way p
  else if c = cfg.cmdError then .frameError way p
  else .frameOther way c p

/-- The decoder, total on every request; what is no instruction is rejected by name. -/
def decodeRequest (cfg : Config) : Request → Except Reject Instr
  | .word w => .ok (decodeWord w)
  | .encode c p =>
    if p.length ≤ maxPayload then .ok (nameFrame cfg .sent c p) else .error .payloadTooLong
  | .decode b =>
    match frameDecode cfg b with
    | .ok f => .ok (nameFrame cfg (.received f.type) f.command f.payload)
    | .error e => .error (.notAFrame b e)

/-- The request that carries a frame. -/
def frameRequest (cfg : Config) (way : Way) (c : Byte) (p : List Byte) : Request :=
  match way with
  | .sent => .encode c p
  | .received t => .decode (frameBytes cfg t c p)

/-- The encoder: the command word of a host operation (R75), the request that carries a frame. -/
def encodeRequest (cfg : Config) : Instr → Request
  | .reset => .word (hostWord 0x0 0 0)
  | .txbegin cmd len => .word (hostWord 0x1 cmd len)
  | .txstep d => .word (hostWord 0x2 0 (byteOperand d))
  | .txstat => .word (hostWord 0x3 0 0)
  | .rxpush b => .word (hostWord 0x4 0 (byteOperand b))
  | .rxclr => .word (hostWord 0x5 0 0)
  | .rxstat => .word (hostWord 0x6 0 0)
  | .rxhdr => .word (hostWord 0x7 0 0)
  | .rxget k => .word (hostWord 0x8 0 k)
  | .rssi curve raw => .word (hostWord 0x9 0 (rssiOperand curve.select raw))
  | .faults => .word (hostWord 0xA 0 0)
  | .reservedB => .word (hostWord 0xB 0 0)
  | .reservedC => .word (hostWord 0xC 0 0)
  | .reservedD => .word (hostWord 0xD 0 0)
  | .reservedE => .word (hostWord 0xE 0 0)
  | .reservedF => .word (hostWord 0xF 0 0)
  | .rssiCurve3 raw => .word (hostWord 0x9 0 (rssiOperand 3 raw))
  | .frameInventory way p => frameRequest cfg way cfg.cmdInventory p
  | .frameMultiPoll way p => frameRequest cfg way cfg.cmdMultiPoll p
  | .frameStopMulti way p => frameRequest cfg way cfg.cmdStopMulti p
  | .frameSelect way p => frameRequest cfg way cfg.cmdSelect p
  | .frameRead way p => frameRequest cfg way cfg.cmdRead p
  | .frameWrite way p => frameRequest cfg way cfg.cmdWrite p
  | .frameError way p => frameRequest cfg way cfg.cmdError p
  | .frameOther way c p => frameRequest cfg way c p

/-! ## Words numbered as the opcode table numbers them -/

/-- Byte `i` of a table word, the first byte lowest. -/
def tableByte (w i : Nat) : Byte := BitVec.ofNat 8 (w >>> (8 * i))

/-- The frame whose first five bytes are the table word `w` (header first), whose payload bytes are
all 0 and whose checksum and trailer are those R60 gives it. DESIGN CHOICE (log entry 9). -/
def tableFrame (cfg : Config) (w : Nat) : List Byte :=
  let body := [tableByte w 1, tableByte w 2, tableByte w 3, tableByte w 4]
    ++ List.replicate (be16 (tableByte w 3) (tableByte w 4)) 0
  [tableByte w 0] ++ body ++ [sum8 body, cfg.trailer]

/-- The request that the low `nbits` bits of `w` stand for: a host command word is one 32-bit word,
a frame row gives the 40 bits of the frame's head. -/
def tableRequest (cfg : Config) (nbits w : Nat) : Request :=
  if nbits ≤ 32 then .word (BitVec.ofNat 32 (w % 2 ^ nbits)) else .decode (tableFrame cfg w)

/-- The instruction that the decoder reads from a word of the opcode table. -/
def decodeTableWord (nbits w : Nat) : Option Instr :=
  match decodeRequest Config.hardwired (tableRequest Config.hardwired nbits w) with
  | .ok i => some i
  | .error _ => none

end Sys2Proof
end

