-- ==== Sys2Proof/Machine/State.lean ====
section
/-! DEFINITION. The state of the block (R10), as plain data, and its value after power-up (R211). -/

namespace Sys2Proof.Machine

/-- The TX unit's registers (R11). -/
structure Tx where
  /-- `tx_active` -/
  active : Bool
  /-- `tx_idx` -/
  idx : Count
  /-- `tx_cmd` -/
  cmd : Byte
  /-- `tx_len` -/
  len : Half
  /-- `tx_sum` -/
  sum : Byte
  deriving DecidableEq, Repr

/-- The RX unit's registers (R15). -/
structure Rx where
  /-- `rx_count` -/
  count : Count
  /-- `rx_hdr_ok` -/
  hdrOk : Bool
  /-- `rx_type` -/
  type : Byte
  /-- `rx_cmd` -/
  cmd : Byte
  /-- `rx_len` -/
  len : Half
  /-- `rx_sum` -/
  sum : Byte
  /-- `rx_ck` -/
  ck : Byte
  /-- `rx_last` -/
  last : Byte
  deriving DecidableEq, Repr

/-- The five faults (R20, R191). -/
inductive FaultFlag
  /-- `F_ILLEGAL_OP`, bit 0. -/
  | illegalOp
  /-- `F_TX_BUSY`, bit 1. -/
  | txBusy
  /-- `F_TX_IDLE`, bit 2. -/
  | txIdle
  /-- `F_RX_INVALID`, bit 3. -/
  | rxInvalid
  /-- `F_BAD_CURVE`, bit 4. -/
  | badCurve
  deriving DecidableEq, Repr

/-- The outcome of one host operation (R8): a result word, or a fault and no word (R79). -/
inductive Answer
  | ok (r : Word)
  | fault (f : FaultFlag)
  deriving DecidableEq, Repr

/-- `rx_pay` (R23): the cells written since power-up, addresses strictly rising. -/
abbrev Memory := List Host.Cell

/-- Everything the spec gives the block, its configuration record, and the two ends of its host
port. -/
structure State where
  /-- The configuration constants (R4, R21, R22), which no operation writes (log entry 1). -/
  cfg : Config
  tx : Tx
  rx : Rx
  /-- `rx_pay` -/
  pay : Memory
  /-- `faults`, five sticky bits (R20). -/
  faults : BitVec 5
  /-- The model's own: the host's requests not yet performed, oldest first (log entry 4). -/
  port : List Request
  /-- The model's own: what the port gave back for the operations of the latest step, in order
  (log entry 3). -/
  answers : List Answer
  deriving DecidableEq, Repr

/-- Why the machine stops with a fault. It never does: a fault of this block sets a sticky bit and
the next operation is executed normally (R190, R194), so every fault is a next state. No
constructor, hence nothing raises it (log entry 5); safe. -/
inductive Fault
  deriving DecidableEq, Repr

/-- Why a step has no meaning. -/
inductive Refusal
  /-- Raised by an arm of `exec` whose instruction has no meaning yet; safe. -/
  | notModelled (mnemonic : String)
  /-- Raised by a frame instruction or an ENCODE request whose payload is longer than 65535 bytes,
  which "cannot be expressed" in the hardware (R13, R90); safe. -/
  | payloadTooLong
  deriving DecidableEq, Repr

/-- The TX registers at reset (R211). -/
def Tx.cleared : Tx := { active := false, idx := 0, cmd := 0, len := 0, sum := 0 }

/-- The RX registers at reset and after `RXCLR` (R15, R211). -/
def Rx.cleared : Rx :=
  { count := 0, hdrOk := false, type := 0, cmd := 0, len := 0, sum := 0, ck := 0, last := 0 }

/-- The machine right after power-up (R210, R211). No cell of `rx_pay` is listed: its contents are
unspecified (log entry 6). -/
def State.reset : State where
  cfg := Config.hardwired
  tx := Tx.cleared
  rx := Rx.cleared
  pay := []
  faults := 0
  port := []
  answers := []

end Sys2Proof.Machine
end

