-- ==== Sys2Proof/Machine/Flags.lean ====
section
/-! DEFINITION. The block's flags: `tx_need` (R19, R94), the RX verdict (R120) with its codes (R76),
and the bits of the `faults` register (R20). -/

namespace Sys2Proof.Machine

/-- `tx_need`: the next `TXSTEP` consumes its operand as a payload byte (R94). -/
def txNeed (tx : Tx) : Bool :=
  tx.active && decide (5 ≤ tx.idx.toNat) && decide (tx.idx.toNat < 5 + tx.len.toNat)

/-- The phases of the TX unit (R91): not a register, a function of `tx_active`, `tx_idx`, `tx_len`. -/
inductive TxPhase
  | idle | header | type | cmd | lenHi | lenLo | payload | cksum | trailer
  deriving DecidableEq, Repr

/-- The phase, its conditions tested in the order of R91's table. -/
def txPhase (tx : Tx) : TxPhase :=
  if tx.active = false then .idle
  else if tx.idx.toNat = 0 then .header
  else if tx.idx.toNat = 1 then .type
  else if tx.idx.toNat = 2 then .cmd
  else if tx.idx.toNat = 3 then .lenHi
  else if tx.idx.toNat = 4 then .lenLo
  else if tx.idx.toNat < 5 + tx.len.toNat then .payload
  else if tx.idx.toNat = 5 + tx.len.toNat then .cksum
  else .trailer

/-- The phases of the RX unit (R119): a function of `rx_count` and `rx_len` before the push. -/
inductive RxPhase
  | header | type | cmd | lenHi | lenLo | payload | cksum | trailer | extra
  deriving DecidableEq, Repr

/-- The phase in which the next `RXPUSH` finds the RX unit (R119). -/
def rxPhase (rx : Rx) : RxPhase :=
  if rx.count.toNat = 0 then .header
  else if rx.count.toNat = 1 then .type
  else if rx.count.toNat = 2 then .cmd
  else if rx.count.toNat = 3 then .lenHi
  else if rx.count.toNat = 4 then .lenLo
  else if rx.count.toNat < 5 + rx.len.toNat then .payload
  else if rx.count.toNat = 5 + rx.len.toNat then .cksum
  else if rx.count.toNat = 6 + rx.len.toNat then .trailer
  else .extra

/-- The verdict of the RX registers, the eight tests of R120 in their order: none where it is Ok,
else the decode error. `rx_len + 7` does not wrap. -/
def decodeErrorOf (cfg : Config) (rx : Rx) : Option DecodeError :=
  if rx.count.toNat = 0 then some .incomplete
  else if rx.hdrOk = false then some .badMarker
  else if rx.count.toNat < 5 then some .incomplete
  else if rx.count.toNat < rx.len.toNat + 7 then some .incomplete
  else if rx.last ≠ cfg.trailer then some .badMarker
  else if rx.count.toNat ≠ rx.len.toNat + 7 then some .lengthMismatch
  else if rx.sum ≠ rx.ck then some .checksumMismatch
  else none

/-- The RX verdict of a state: `none` is Ok. -/
def verdict (s : State) : Option DecodeError := decodeErrorOf s.cfg s.rx

/-- Verdict codes of `RXSTAT`'s r[2:0] (R76). -/
def verdictCode : Option DecodeError → BitVec 3
  | some .incomplete => 0
  | none => 1
  | some .badMarker => 2
  | some .lengthMismatch => 3
  | some .checksumMismatch => 4

/-- The bit of `faults` that a fault sets (R20). -/
def faultBit : FaultFlag → BitVec 5
  | .illegalOp => 0b00001
  | .txBusy => 0b00010
  | .txIdle => 0b00100
  | .rxInvalid => 0b01000
  | .badCurve => 0b10000

end Sys2Proof.Machine
end

