-- ==== Sys2Proof/Machine/Operands.lean ====
section
/-! DEFINITION. What the operations compute from their operands and registers: the byte a `TXSTEP`
emits and the registers it leaves (R91, R93), the registers an `RXPUSH` leaves (R119, R121), the
RSSI estimate (R150), and the result words of R75. -/

namespace Sys2Proof.Machine

/-! ## TX -/

/-- `out` of R93: the frame byte at index `tx_idx`; comparisons on unbounded integers (R97). -/
def txOut (cfg : Config) (tx : Tx) (d : Byte) : Byte :=
  let i := tx.idx.toNat
  let len := tx.len.toNat
  if i = 0 then cfg.header
  else if i = 1 then cfg.typeByte
  else if i = 2 then tx.cmd
  else if i = 3 then hi8 tx.len
  else if i = 4 then lo8 tx.len
  else if i < 5 + len then d
  else if i = 5 + len then tx.sum
  else cfg.trailer

/-- `last` of R93: this step emits the trailer. -/
def txLast (tx : Tx) : Bool := decide (tx.idx.toNat = 6 + tx.len.toNat)

/-- The registers after the step that emits `out` (R93). -/
def txAdvance (tx : Tx) (out : Byte) : Tx :=
  { tx with
    active := if txLast tx then false else tx.active
    idx := if txLast tx then 0 else tx.idx + 1
    sum := if 1 ≤ tx.idx.toNat ∧ tx.idx.toNat ≤ 4 + tx.len.toNat then tx.sum + out else tx.sum }

/-! ## RX -/

/-- `RXSAT` = 2^17 - 1, where `rx_count` stays (R5, R18). -/
def rxSat : Nat := 131071

/-- The field registers after a push of `b` at run index `rx_count` (R121), before `rx_last` and
`rx_count` are written. -/
def rxField (cfg : Config) (rx : Rx) (b : Byte) : Rx :=
  let n := rx.count.toNat
  let len := rx.len.toNat
  if n = 0 then { rx with hdrOk := decide (b = cfg.header) }
  else if n = 1 then { rx with type := b, sum := b }
  else if n = 2 then { rx with cmd := b, sum := rx.sum + b }
  else if n = 3 then { rx with len := b ++ lo8 rx.len, sum := rx.sum + b }
  else if n = 4 then { rx with len := hi8 rx.len ++ b, sum := rx.sum + b }
  else if n < 5 + len then { rx with sum := rx.sum + b }
  else if n = 5 + len then { rx with ck := b }
  else rx

/-- The RX registers after a push of `b` (R121); `rx_count` saturates (R18). -/
def rxNext (cfg : Config) (rx : Rx) (b : Byte) : Rx :=
  { rxField cfg rx b with
    last := b
    count := BitVec.ofNat 17 (min (rx.count.toNat + 1) rxSat) }

/-- The payload cell that a push writes, if it writes one: phase PAYLOAD of R119. -/
def rxPayIndex (rx : Rx) : Option Nat :=
  if 5 ≤ rx.count.toNat ∧ rx.count.toNat < 5 + rx.len.toNat then some (rx.count.toNat - 5) else none

/-! ## RSSI -/

/-- `clamp(v, lo, hi)` of R6. -/
def clamp (v lo hi : Int) : Int := if v < lo then lo else if v > hi then hi else v

/-- `Estimate(raw, c)` of R150, in dBm. -/
def estimate (cfg : Config) (raw : Byte) (c : Curve) : Int :=
  clamp (cfg.entry c raw) cfg.rssiMin.toInt cfg.rssiMax.toInt

/-- `tc8(i)` of R6: two's complement in 8 bits. -/
def tc8 (i : Int) : Byte := BitVec.ofInt 8 i

/-- `sext8(v)` of R6, which the host applies to an `RSSI` result (R152). -/
def sext8 (v : Byte) : Int := v.toInt

/-! ## Result words (R75): other bits 0 -/

/-- r[7:0] = the byte. -/
def byteWord (b : Byte) : Word := (0 : BitVec 24) ++ b

/-- `TXSTEP`: r[7:0] = emitted byte, r[8] = 1 iff it was the trailer. -/
def txstepWord (out : Byte) (last : Bool) : Word := (0 : BitVec 23) ++ BitVec.ofBool last ++ out

/-- `TXSTAT`: r[16:0] = `tx_idx`, r[17] = `tx_active`, r[18] = `tx_need`. -/
def txstatWord (tx : Tx) : Word :=
  (0 : BitVec 13) ++ BitVec.ofBool (txNeed tx) ++ BitVec.ofBool tx.active ++ tx.idx

/-- `RXSTAT`: r[2:0] = verdict code, r[19:3] = `rx_count`. -/
def rxstatWord (v : Option DecodeError) (count : Count) : Word :=
  (0 : BitVec 12) ++ count ++ verdictCode v

/-- `RXHDR`: r[31:24] = `rx_type`, r[23:16] = `rx_cmd`, r[15:0] = `rx_len`. -/
def rxhdrWord (rx : Rx) : Word := rx.type ++ rx.cmd ++ rx.len

/-- `FAULTS`: r[4:0] = `faults`. -/
def faultsWord (f : BitVec 5) : Word := (0 : BitVec 27) ++ f

end Sys2Proof.Machine
end

