-- ==== Sys2Proof/Machine/Ops.lean ====
section
/-! DEFINITION. The operations the meanings share: reading and writing `rx_pay` (R41, R42), giving
an answer (R8), raising a fault (R190), performing several operations in order (R50, R81), and
taking the next request from the port. -/

namespace Sys2Proof.Machine

/-! ## `rx_pay` -/

/-- The number of cells (R23, R40). -/
def payCells : Nat := 65535

/-- The memory is in its one canonical form: addresses strictly rising, all within the space. -/
abbrev Memory.wf (m : Memory) : Prop :=
  (m.map Prod.fst).Pairwise (· < ·) ∧ ∀ c ∈ m, c.1 < payCells

/-- What cell `k` holds as far as it has been written: an unlisted cell reads as no value. -/
def payGet? : Memory → Nat → Option Byte
  | [], _ => none
  | (a, v) :: m, k => if a = k then some v else payGet? m k

/-- `PayRead(k)` of R42. A cell not written since power-up holds a free value (R25, U13; log
entry 6); no run can tell (R24). -/
def payRead (m : Memory) (k : Nat) : Byte := (payGet? m k).getD (Config.powerUpPay k)

/-- `PayWrite(k, v)` of R41, keeping the canonical form. -/
def payWrite : Memory → Nat → Byte → Memory
  | [], k, v => [(k, v)]
  | (a, u) :: m, k, v =>
    if k < a then (k, v) :: (a, u) :: m
    else if k = a then (k, v) :: m
    else (a, u) :: payWrite m k v

/-! ## Answers -/

/-- End an operation with outcome `ok(r)` (R8). -/
def answer (r : Word) (s : State) : State := { s with answers := [.ok r] }

/-- `raise F` (R190): bit F of `faults` is set, nothing else changes, no result word is produced. -/
def raise (f : FaultFlag) (s : State) : State :=
  { s with faults := s.faults ||| faultBit f, answers := [.fault f] }

/-! ## Sequences -/

/-- Perform operations one after the other, each on the state the one before left (R50), and gather
their answers in order. -/
def performAll : List (State → State) → State → State
  | [], s => { s with answers := [] }
  | op :: ops, s =>
    let s₁ := op s
    let s₂ := performAll ops s₁
    { s₂ with answers := s₁.answers ++ s₂.answers }

/-! ## The port -/

/-- The next request and the state without it; none where the host has issued nothing. -/
def fetch (s : State) : Option (Request × State) :=
  match s.port with
  | [] => none
  | r :: rest => some (r, { s with port := rest })

/-- The state whose next request is `r`. -/
def placeRequest (r : Request) (s : State) : State := { s with port := r :: s.port }

end Sys2Proof.Machine
end

