-- ==== Sys2Proof/Machine/Rx.lean ====
section
/-! DEFINITION. The RX unit: RXPUSH (R121), RXCLR (R122), RXSTAT (R123), RXHDR (R124), RXGET
(R125). -/

namespace Sys2Proof.Machine

/-- `rx_pay` after a push of `b` (R121). -/
def rxStore (rx : Rx) (b : Byte) (m : Memory) : Memory :=
  match rxPayIndex rx with
  | some k => payWrite m k b
  | none => m

/-- `RXPUSH b` (R121): take the next byte of the run; never faults. -/
def rxPush (b : Byte) (s : State) : State :=
  answer 0 { s with rx := rxNext s.cfg s.rx b, pay := rxStore s.rx b s.pay }

/-- `RXCLR` (R122): discard the run; `rx_pay` is not changed. -/
def rxClear (s : State) : State := answer 0 { s with rx := Rx.cleared }

/-- `RXSTAT` (R123). -/
def rxStat (s : State) : State := answer (rxstatWord (verdict s) s.rx.count) s

/-- `RXHDR` (R124): the decoded frame's type, command and length, or fault `F_RX_INVALID`. -/
def rxHdr (s : State) : State :=
  if verdict s = none then answer (rxhdrWord s.rx) s else raise .rxInvalid s

/-- `RXGET k` (R125): payload byte k of the decoded frame, or fault `F_RX_INVALID`. -/
def rxGet (k : Half) (s : State) : State :=
  if verdict s = none then
    if k.toNat < s.rx.len.toNat then answer (byteWord (payRead s.pay k.toNat)) s
    else raise .rxInvalid s
  else raise .rxInvalid s

/-- The meaning of RXPUSH. -/
def execRxpush (b : Byte) (s : State) : Host.Outcome State Fault Refusal := .next (rxPush b s)

/-- The meaning of RXCLR. -/
def execRxclr (s : State) : Host.Outcome State Fault Refusal := .next (rxClear s)

/-- The meaning of RXSTAT. -/
def execRxstat (s : State) : Host.Outcome State Fault Refusal := .next (rxStat s)

/-- The meaning of RXHDR. -/
def execRxhdr (s : State) : Host.Outcome State Fault Refusal := .next (rxHdr s)

/-- The meaning of RXGET. -/
def execRxget (k : Half) (s : State) : Host.Outcome State Fault Refusal := .next (rxGet k s)

end Sys2Proof.Machine
end

