-- ==== Sys2Proof/Machine/Tx.lean ====
section
/-! DEFINITION. The TX unit: TXBEGIN (R92), TXSTEP (R93), TXSTAT (R171). -/

namespace Sys2Proof.Machine

/-- `TXBEGIN cmd, len` (R92): start a frame, or fault `F_TX_BUSY` with the frame in progress
unharmed. -/
def txBegin (cmd : Byte) (len : Half) (s : State) : State :=
  if s.tx.active then raise .txBusy s
  else answer 0 { s with tx := { active := true, idx := 0, cmd := cmd, len := len, sum := 0 } }

/-- `TXSTEP d` (R93): emit the next byte of the frame, or fault `F_TX_IDLE`. -/
def txStep (d : Byte) (s : State) : State :=
  if s.tx.active then
    let out := txOut s.cfg s.tx d
    answer (txstepWord out (txLast s.tx)) { s with tx := txAdvance s.tx out }
  else raise .txIdle s

/-- `TXSTAT` (R171). -/
def txStat (s : State) : State := answer (txstatWord s.tx) s

/-- The meaning of TXBEGIN. -/
def execTxbegin (cmd : Byte) (len : Half) (s : State) : Host.Outcome State Fault Refusal :=
  .next (txBegin cmd len s)

/-- The meaning of TXSTEP. -/
def execTxstep (d : Byte) (s : State) : Host.Outcome State Fault Refusal := .next (txStep d s)

/-- The meaning of TXSTAT. -/
def execTxstat (s : State) : Host.Outcome State Fault Refusal := .next (txStat s)

end Sys2Proof.Machine
end

