-- ==== Sys2Proof/Machine/Frames.lean ====
section
/-! DEFINITION. The wire frames (R60 to R73): what the block does with a whole frame is the
expansion of R81, performed in one step (log entry 7): ENCODE on the transmit side, DECODE on the
receive side. The codec is transparent to the command byte (R71), so the eight rows differ in that
byte alone. READFRAME stands beside them. -/

namespace Sys2Proof.Machine

/-- The operands of the `|p| + 7` TXSTEPs of `ENCODE c, p` (R81): the payload bytes at indices
5 .. 4+|p|, and 0 (an omitted operand, R80) at the others. -/
def stepOperands (p : List Byte) : List Byte := List.replicate 5 0 ++ p ++ [0, 0]

/-- `ENCODE c, p` (R81). -/
def encodeRun (c : Byte) (p : List Byte) (s : State) : State :=
  performAll (txBegin c (BitVec.ofNat 16 p.length) :: (stepOperands p).map txStep) s

/-- `DECODE b` (R81). -/
def decodeRun (b : List Byte) (s : State) : State :=
  performAll (rxClear :: b.map rxPush ++ [rxStat]) s

/-- `READFRAME` (R81): `RXHDR`, then `RXGET 0 .. rx_len-1`. -/
def readFrame (s : State) : State :=
  performAll (rxHdr :: (List.range s.rx.len.toNat).map fun k => rxGet (BitVec.ofNat 16 k)) s

/-- A frame with command byte `c`; a payload that the length field cannot declare is no frame
(R13; log entry 8). -/
def frameOp (c : Byte) (way : Way) (p : List Byte) (s : State) : Host.Outcome State Fault Refusal :=
  if payloadFits p then
    match way with
    | .sent => .next (encodeRun c p s)
    | .received t => .next (decodeRun (frameBytes s.cfg t c p) s)
  else .refused .payloadTooLong

/-- The meaning of FRAME.INVENTORY. -/
def execFrameInventory (way : Way) (p : List Byte) (s : State) : Host.Outcome State Fault Refusal :=
  frameOp s.cfg.cmdInventory way p s

/-- The meaning of FRAME.MULTI_POLL. -/
def execFrameMultiPoll (way : Way) (p : List Byte) (s : State) : Host.Outcome State Fault Refusal :=
  frameOp s.cfg.cmdMultiPoll way p s

/-- The meaning of FRAME.STOP_MULTI. -/
def execFrameStopMulti (way : Way) (p : List Byte) (s : State) : Host.Outcome State Fault Refusal :=
  frameOp s.cfg.cmdStopMulti way p s

/-- The meaning of FRAME.SELECT. -/
def execFrameSelect (way : Way) (p : List Byte) (s : State) : Host.Outcome State Fault Refusal :=
  frameOp s.cfg.cmdSelect way p s

/-- The meaning of FRAME.READ. -/
def execFrameRead (way : Way) (p : List Byte) (s : State) : Host.Outcome State Fault Refusal :=
  frameOp s.cfg.cmdRead way p s

/-- The meaning of FRAME.WRITE. -/
def execFrameWrite (way : Way) (p : List Byte) (s : State) : Host.Outcome State Fault Refusal :=
  frameOp s.cfg.cmdWrite way p s

/-- The meaning of FRAME.ERROR; the codec does not read the error code in its payload (R72). -/
def execFrameError (way : Way) (p : List Byte) (s : State) : Host.Outcome State Fault Refusal :=
  frameOp s.cfg.cmdError way p s

/-- The meaning of FRAME.other: any command byte (R71). -/
def execFrameOther (way : Way) (c : Byte) (p : List Byte) (s : State) :
    Host.Outcome State Fault Refusal :=
  frameOp c way p s

/-- A request that is no instruction. A byte run that is not a valid frame is still taken by the RX
unit, and its verdict is read (R81, R110, R180); a payload that does not fit cannot be asked of the
hardware (R13). -/
def performRejected (r : Reject) (s : State) : Host.Outcome State Fault Refusal :=
  match r with
  | .notAFrame run _ => .next (decodeRun run s)
  | .payloadTooLong => .refused .payloadTooLong

end Sys2Proof.Machine
end

