-- ==== Sys2Proof/Machine/Rssi.lean ====
section
/-! DEFINITION. The RSSI unit: RSSI with a curve (R152) and with the reserved curve select 3. -/

namespace Sys2Proof.Machine

/-- `RSSI raw, curve` (R152): the estimate as an 8-bit two's-complement value, upper bits 0. -/
def rssiRead (c : Curve) (raw : Byte) (s : State) : State :=
  answer (byteWord (tc8 (estimate s.cfg raw c))) s

/-- The meaning of RSSI. -/
def execRssi (c : Curve) (raw : Byte) (s : State) : Host.Outcome State Fault Refusal :=
  .next (rssiRead c raw s)

/-- The meaning of RSSI.curve3: `raise F_BAD_CURVE`, whatever `raw` is (R77, R152). -/
def execRssiCurve3 (_raw : Byte) (s : State) : Host.Outcome State Fault Refusal :=
  .next (raise .badCurve s)

end Sys2Proof.Machine
end

