-- ==== Sys2Proof/Machine/System.lean ====
section
/-! DEFINITION. The system operations: RESET (R170), FAULTS (R173), the reserved operation codes
0xB to 0xF (R174). -/

namespace Sys2Proof.Machine

/-- `RESET` (R170): every register at its reset value; `rx_pay` and the configuration are not
changed. -/
def resetBlock (s : State) : State :=
  answer 0 { s with tx := Tx.cleared, rx := Rx.cleared, faults := 0 }

/-- `FAULTS` (R173): read the sticky register; it is not cleared. -/
def readFaults (s : State) : State := answer (faultsWord s.faults) s

/-- A command word that names no operation (R174). -/
def illegalOp (s : State) : State := raise .illegalOp s

/-- The meaning of RESET. -/
def execReset (s : State) : Host.Outcome State Fault Refusal := .next (resetBlock s)

/-- The meaning of FAULTS. -/
def execFaults (s : State) : Host.Outcome State Fault Refusal := .next (readFaults s)

/-- The meaning of op code 0xB. -/
def execReservedB (s : State) : Host.Outcome State Fault Refusal := .next (illegalOp s)

/-- The meaning of op code 0xC. -/
def execReservedC (s : State) : Host.Outcome State Fault Refusal := .next (illegalOp s)

/-- The meaning of op code 0xD. -/
def execReservedD (s : State) : Host.Outcome State Fault Refusal := .next (illegalOp s)

/-- The meaning of op code 0xE. -/
def execReservedE (s : State) : Host.Outcome State Fault Refusal := .next (illegalOp s)

/-- The meaning of op code 0xF. -/
def execReservedF (s : State) : Host.Outcome State Fault Refusal := .next (illegalOp s)

end Sys2Proof.Machine
end

