-- ==== Sys2Proof/Machine/Dispatch.lean ====
section
/-! DEFINITION. The dispatch: one arm per constructor of Instr. -/

namespace Sys2Proof.Machine

/-- What each instruction does. -/
def exec (i : Instr) (s : State) : Host.Outcome State Fault Refusal :=
  match i with
  | .reset => Sys2Proof.Machine.execReset s
  | .txbegin cmd len => Sys2Proof.Machine.execTxbegin cmd len s
  | .txstep d => Sys2Proof.Machine.execTxstep d s
  | .txstat => Sys2Proof.Machine.execTxstat s
  | .rxpush b => Sys2Proof.Machine.execRxpush b s
  | .rxclr => Sys2Proof.Machine.execRxclr s
  | .rxstat => Sys2Proof.Machine.execRxstat s
  | .rxhdr => Sys2Proof.Machine.execRxhdr s
  | .rxget k => Sys2Proof.Machine.execRxget k s
  | .rssi curve raw => Sys2Proof.Machine.execRssi curve raw s
  | .faults => Sys2Proof.Machine.execFaults s
  | .reservedB => Sys2Proof.Machine.execReservedB s
  | .reservedC => Sys2Proof.Machine.execReservedC s
  | .reservedD => Sys2Proof.Machine.execReservedD s
  | .reservedE => Sys2Proof.Machine.execReservedE s
  | .reservedF => Sys2Proof.Machine.execReservedF s
  | .rssiCurve3 raw => Sys2Proof.Machine.execRssiCurve3 raw s
  | .frameInventory way payload => Sys2Proof.Machine.execFrameInventory way payload s
  | .frameMultiPoll way payload => Sys2Proof.Machine.execFrameMultiPoll way payload s
  | .frameStopMulti way payload => Sys2Proof.Machine.execFrameStopMulti way payload s
  | .frameSelect way payload => Sys2Proof.Machine.execFrameSelect way payload s
  | .frameRead way payload => Sys2Proof.Machine.execFrameRead way payload s
  | .frameWrite way payload => Sys2Proof.Machine.execFrameWrite way payload s
  | .frameError way payload => Sys2Proof.Machine.execFrameError way payload s
  | .frameOther way command payload => Sys2Proof.Machine.execFrameOther way command payload s

end Sys2Proof.Machine
end

