-- ==== Sys2Proof/Machine/Step.lean ====
section
/-! DEFINITION. One step: the block takes the host's next request, decodes it under its
configuration, and performs it (R50). Where the host has issued nothing, the block holds its state
(R202). -/

namespace Sys2Proof.Machine

/-- One step of the machine. -/
def step (s : State) : Host.Outcome State Fault Refusal :=
  match fetch s with
  | none => .next s
  | some (r, s') =>
    match decodeRequest s.cfg r with
    | .ok i => exec i s'
    | .error e => performRejected e s'

/-- `s` with the instruction of a table word as the next request. -/
def State.withFetchWord (s : State) (nbits w : Nat) : State :=
  placeRequest (tableRequest s.cfg nbits w) s

end Sys2Proof.Machine
end

