-- ==== Sys2Proof/Safety.lean ====
section
/-! DEFINITION. What a good state and a safe run of the block are: the invariant of R12, R16 and R4
that every step keeps, and runs in which no fault bit is set (R190). -/

namespace Sys2Proof

/-! ## Kinds of instructions -/

/-- The frame that a frame instruction stands for under this configuration: its side, command byte
and payload; none for a host operation. -/
def Instr.frame? (cfg : Config) : Instr → Option (Way × Byte × List Byte)
  | .reset => none
  | .txbegin _ _ => none
  | .txstep _ => none
  | .txstat => none
  | .rxpush _ => none
  | .rxclr => none
  | .rxstat => none
  | .rxhdr => none
  | .rxget _ => none
  | .rssi _ _ => none
  | .faults => none
  | .reservedB => none
  | .reservedC => none
  | .reservedD => none
  | .reservedE => none
  | .reservedF => none
  | .rssiCurve3 _ => none
  | .frameInventory way p => some (way, cfg.cmdInventory, p)
  | .frameMultiPoll way p => some (way, cfg.cmdMultiPoll, p)
  | .frameStopMulti way p => some (way, cfg.cmdStopMulti, p)
  | .frameSelect way p => some (way, cfg.cmdSelect, p)
  | .frameRead way p => some (way, cfg.cmdRead, p)
  | .frameWrite way p => some (way, cfg.cmdWrite, p)
  | .frameError way p => some (way, cfg.cmdError, p)
  | .frameOther way c p => some (way, c, p)

/-- A host operation: what one command word spells (R75 to R78). -/
def Instr.isHostOp : Instr → Bool
  | .reset | .txbegin _ _ | .txstep _ | .txstat | .rxpush _ | .rxclr | .rxstat | .rxhdr | .rxget _
  | .rssi _ _ | .faults | .reservedB | .reservedC | .reservedD | .reservedE | .reservedF
  | .rssiCurve3 _ => true
  | .frameInventory _ _ | .frameMultiPoll _ _ | .frameStopMulti _ _ | .frameSelect _ _
  | .frameRead _ _ | .frameWrite _ _ | .frameError _ _ | .frameOther _ _ _ => false

/-- An operation that drives a transmit frame: TXBEGIN or TXSTEP. -/
def Instr.drivesTx : Instr → Bool
  | .txbegin _ _ | .txstep _ => true
  | _ => false

/-- An operation that writes an RX register: "Written by RXPUSH, RXCLR, RESET only" (R15). -/
def Instr.writesRx : Instr → Bool
  | .rxpush _ | .rxclr | .reset => true
  | _ => false

/-- The three units of the block (R10). -/
inductive BlockUnit
  | tx | rx | rssi
  deriving DecidableEq, Repr

/-- The unit an operation belongs to (R52); none for RESET, FAULTS, the reserved codes and the
frames. -/
def Instr.unit? : Instr → Option BlockUnit
  | .txbegin _ _ | .txstep _ | .txstat => some .tx
  | .rxpush _ | .rxclr | .rxstat | .rxhdr | .rxget _ => some .rx
  | .rssi _ _ | .rssiCurve3 _ => some .rssi
  | _ => none

/-- The bits of a command word that its operation code gives a meaning (R75): the code itself and
the operand positions the operation lists. -/
def usedBits (op : BitVec 4) : Word :=
  match op.toNat with
  | 0x1 => 0xF0FFFFFF
  | 0x2 => 0xF00000FF
  | 0x4 => 0xF00000FF
  | 0x8 => 0xF000FFFF
  | 0x9 => 0xF00003FF
  | _ => 0xF0000000

end Sys2Proof

namespace Sys2Proof.Machine

/-- How many payload bytes of the present run are in `rx_pay`: `min(N-5, L)` of R16. -/
def rxStored (rx : Rx) : Nat := min (rx.count.toNat - 5) rx.len.toNat

/-- The bytes of the present run that `rx_sum` covers (R15), as the registers and `rx_pay` hold
them: run bytes 1 .. min(N-1, 4+L). -/
def rxSummed (rx : Rx) (m : Memory) : List Byte :=
  [rx.type, rx.cmd, hi8 rx.len, lo8 rx.len].take (rx.count.toNat - 1)
    ++ (List.range (rxStored rx)).map (payRead m)

/-- What holds of the TX registers after every operation (R12). -/
structure Tx.Inv (tx : Tx) : Prop where
  idle : tx.active = false → tx.idx = 0
  busy : tx.active = true → tx.idx.toNat ≤ 6 + tx.len.toNat

/-- What holds of the RX registers and `rx_pay` after every operation (R15, R16, R18). -/
structure Rx.Inv (rx : Rx) (m : Memory) : Prop where
  /-- An empty run leaves nothing of the run before (R122). -/
  empty : rx.count.toNat = 0 → rx = Rx.cleared
  /-- A field not reached yet is 0: the type byte, the command byte, the length, its low byte. -/
  typeUnset : rx.count.toNat ≤ 1 → rx.type = 0
  cmdUnset : rx.count.toNat ≤ 2 → rx.cmd = 0
  lenUnset : rx.count.toNat ≤ 3 → rx.len = 0
  lenLowUnset : rx.count.toNat ≤ 4 → lo8 rx.len = 0
  /-- `rx_sum` is the sum of the summed bytes. -/
  sum : rx.sum = sum8 (rxSummed rx m)
  /-- Every payload byte of the run has been written (R24). -/
  written : ∀ k, k < rxStored rx → payGet? m k ≠ none

/-- What holds after every step: the configuration obeys R4, `rx_pay` is in its canonical form, and
the registers hold what R12 and R16 say. -/
structure State.Inv (s : State) : Prop where
  cfg : s.cfg.Valid
  pay : Memory.wf s.pay
  tx : Tx.Inv s.tx
  rx : Rx.Inv s.rx s.pay

/-! ## Sequences of operations, as the host issues them -/

/-- The host issues these operations in order (R50): the state after them and all their answers;
none if one of them stops. -/
def issueAll : List Instr → State → Option (State × List Answer)
  | [], s => some (s, [])
  | i :: is, s =>
    match exec i s with
    | .next t =>
      match issueAll is t with
      | some (u, as) => some (u, t.answers ++ as)
      | none => none
    | .fault _ => none
    | .refused _ => none

/-- What the operations of `ENCODE c, p` give back from an idle TX unit (R81, R95): the result 0 of
TXBEGIN, then the bytes of `Encode(c, p)` in order, r[8] set on the last one only. -/
def encodeAnswers (cfg : Config) (c : Byte) (p : List Byte) : List Answer :=
  .ok 0 :: ((frameEncode cfg c p).dropLast.map fun b => .ok (b.setWidth 32))
    ++ [.ok (0x100 ||| cfg.trailer.setWidth 32)]

/-- The verdict of `Decode(b)`: none is Ok (R110). -/
def runVerdict (cfg : Config) (b : List Byte) : Option DecodeError :=
  match frameDecode cfg b with
  | .ok _ => none
  | .error e => some e

/-! ## Safe runs -/

/-- "A model should treat any set fault bit as gone wrong" (R190). -/
def State.clean (s : State) : Bool := s.faults == 0

/-- The first `k` steps from `s` are next states, and no fault bit is set before, between or after
them (R190). -/
def safeFor : Nat → State → Bool
  | 0, s => s.clean
  | k + 1, s =>
    s.clean && match step s with
      | .next t => safeFor k t
      | .fault _ => false
      | .refused _ => false

end Sys2Proof.Machine
end

