-- ==== Sys2Proof/Certificates/Slice0/Obligations.lean ====
section
/-! DEFINITION. The statements for the provers. Each docstring names the rules of spec/ that the
statement formalises or rests on. A verdict is an `Option DecodeError`: `none` is Ok. -/

open Sys2Proof Sys2Proof.Machine

/-! ## The port: words, requests, steps -/

/-- R75, R77, R78: the operation code selects the operation, and each operand is read at its
position. -/
def Obligations.CommandWordsDecodeByTheirFields : Prop :=
  ∀ w : Word,
    (w.extractLsb' 28 4 = 0x0#4 → decodeWord w = .reset) ∧
    (w.extractLsb' 28 4 = 0x1#4 →
      decodeWord w = .txbegin (w.extractLsb' 16 8) (w.extractLsb' 0 16)) ∧
    (w.extractLsb' 28 4 = 0x2#4 → decodeWord w = .txstep (w.extractLsb' 0 8)) ∧
    (w.extractLsb' 28 4 = 0x3#4 → decodeWord w = .txstat) ∧
    (w.extractLsb' 28 4 = 0x4#4 → decodeWord w = .rxpush (w.extractLsb' 0 8)) ∧
    (w.extractLsb' 28 4 = 0x5#4 → decodeWord w = .rxclr) ∧
    (w.extractLsb' 28 4 = 0x6#4 → decodeWord w = .rxstat) ∧
    (w.extractLsb' 28 4 = 0x7#4 → decodeWord w = .rxhdr) ∧
    (w.extractLsb' 28 4 = 0x8#4 → decodeWord w = .rxget (w.extractLsb' 0 16)) ∧
    (w.extractLsb' 28 4 = 0x9#4 →
      (w.extractLsb' 8 2 = 0#2 → decodeWord w = .rssi .linear (w.extractLsb' 0 8)) ∧
      (w.extractLsb' 8 2 = 1#2 → decodeWord w = .rssi .curved (w.extractLsb' 0 8)) ∧
      (w.extractLsb' 8 2 = 2#2 → decodeWord w = .rssi .custom (w.extractLsb' 0 8)) ∧
      (w.extractLsb' 8 2 = 3#2 → decodeWord w = .rssiCurve3 (w.extractLsb' 0 8))) ∧
    (w.extractLsb' 28 4 = 0xA#4 → decodeWord w = .faults) ∧
    (w.extractLsb' 28 4 = 0xB#4 → decodeWord w = .reservedB) ∧
    (w.extractLsb' 28 4 = 0xC#4 → decodeWord w = .reservedC) ∧
    (w.extractLsb' 28 4 = 0xD#4 → decodeWord w = .reservedD) ∧
    (w.extractLsb' 28 4 = 0xE#4 → decodeWord w = .reservedE) ∧
    (w.extractLsb' 28 4 = 0xF#4 → decodeWord w = .reservedF)

/-- Words and frames written out from the spec's encodings (R75 and 95_test_vectors.md: the TX
trace of V3, F5, F6, F8, Q7, P4, V1 and E) decode to what they stand for. The two frames hold under
any configuration whose markers and command codes are those of `CFG_REF`. -/
def Obligations.SampleEncodingsDecode : Prop :=
  decodeWord 0x10270003 = .txbegin 0x27 3 ∧
  decodeWord 0x2FFFFF00 = .txstep 0x00 ∧
  decodeWord 0x400000BB = .rxpush 0xBB ∧
  decodeWord 0x8000000E = .rxget 14 ∧
  decodeWord 0x900001A0 = .rssi .curved 0xA0 ∧
  decodeWord 0x90000380 = .rssiCurve3 0x80 ∧
  decodeWord 0xB0000000 = .reservedB ∧
  (∀ cfg : Config, cfg.header = 0xBB → cfg.trailer = 0x7E → cfg.cmdInventory = 0x22 →
    decodeRequest cfg (.decode [0xBB, 0x00, 0x22, 0x00, 0x00, 0x22, 0x7E]) =
      .ok (.frameInventory (.received 0x00) [])) ∧
  (∀ cfg : Config, cfg.header = 0xBB → cfg.trailer = 0x7E → cfg.cmdError = 0xFF → cfg.Valid →
    decodeRequest cfg (.decode [0xBB, 0x01, 0xFF, 0x00, 0x01, 0x15, 0x16, 0x7E]) =
      .ok (.frameError (.received 0x01) [0x15]))

/-- R75: "Unused bits, including operand positions an operation does not list, are ignored (any
value, no effect)". -/
def Obligations.UnusedBitsAreIgnored : Prop :=
  ∀ w v : Word,
    decodeWord ((w &&& usedBits (w.extractLsb' 28 4)) ||| (v &&& ~~~usedBits (w.extractLsb' 28 4)))
      = decodeWord w

/-- R64, R75, R77, R114: decoding what the encoder writes for a well-formed instruction gives it
back, for every instruction and every operand, under every configuration that R4 allows. -/
def Obligations.DecodeOfEncodeIsIdentity : Prop :=
  ∀ (cfg : Config) (i : Instr), cfg.Valid → i.wellFormed cfg = true →
    decodeRequest cfg (encodeRequest cfg i) = .ok i

/-- R75, R114: whatever request decodes to an instruction, that instruction is well-formed; a frame
request is the only one that its instruction encodes to, and a command word encodes to a word of
the same meaning. -/
def Obligations.EncodeOfDecodeIsFaithful : Prop :=
  ∀ (cfg : Config) (r : Request) (i : Instr), decodeRequest cfg r = .ok i →
    i.wellFormed cfg = true ∧
    (∀ c p, r = .encode c p → encodeRequest cfg i = r) ∧
    (∀ b, r = .decode b → encodeRequest cfg i = r) ∧
    (∀ w, r = .word w → ∃ w', encodeRequest cfg i = .word w' ∧ decodeWord w' = decodeWord w)

/-- R50, R202 and the model's port (log entry 4): a step takes the next request and performs what
it decodes to; with no request the block holds its state; a request that a well-formed instruction
encodes to runs that instruction. -/
def Obligations.StepRunsTheDecodedInstruction : Prop :=
  (∀ (s : State) (r : Request) (rest : List Request) (i : Instr),
    s.port = r :: rest → decodeRequest s.cfg r = .ok i →
    step s = exec i { s with port := rest }) ∧
  (∀ (s : State) (i : Instr) (rest : List Request),
    s.cfg.Valid → i.wellFormed s.cfg = true → s.port = encodeRequest s.cfg i :: rest →
    step s = exec i { s with port := rest }) ∧
  (∀ s : State, s.port = [] → step s = .next s)

/-- The model's `withFetchWord` (log entry 9): the very next step runs the instruction of the table
word. -/
def Obligations.FetchWordIsRunNext : Prop :=
  ∀ (s : State) (w : Nat), w < 2 ^ 32 →
    decodeTableWord 32 w = some (decodeWord (BitVec.ofNat 32 w)) ∧
    step (s.withFetchWord 32 w) = exec (decodeWord (BitVec.ofNat 32 w)) s

/-! ## Reset -/

/-- R211, R210: the value of every register after power-up, and RESET leaves the same values. -/
def Obligations.ResetValuesAreThoseOfTheTable : Prop :=
  (State.reset.tx.active = false ∧ State.reset.tx.idx = 0 ∧ State.reset.tx.cmd = 0 ∧
    State.reset.tx.len = 0 ∧ State.reset.tx.sum = 0 ∧ txNeed State.reset.tx = false) ∧
  (State.reset.rx.count = 0 ∧ State.reset.rx.hdrOk = false ∧ State.reset.rx.type = 0 ∧
    State.reset.rx.cmd = 0 ∧ State.reset.rx.len = 0 ∧ State.reset.rx.sum = 0 ∧
    State.reset.rx.ck = 0 ∧ State.reset.rx.last = 0 ∧
    verdict State.reset = some .incomplete) ∧
  State.reset.faults = 0b00000#5 ∧
  ∀ s : State, ∃ t, exec .reset s = .next t ∧
    t.tx = State.reset.tx ∧ t.rx = State.reset.rx ∧ t.faults = State.reset.faults ∧
    t.pay = s.pay ∧ t.cfg = s.cfg

/-- R170: RESET puts every register at 0, leaves `rx_pay` and the configuration, and answers 0. -/
def Obligations.ResetClearsEveryRegister : Prop :=
  (∀ w : Word, w.extractLsb' 28 4 = 0x0#4 → decodeWord w = .reset) ∧
  ∀ s : State,
    (exec .reset s = .next { s with
      tx := { active := false, idx := 0, cmd := 0, len := 0, sum := 0 }
      rx := { count := 0, hdrOk := false, type := 0, cmd := 0, len := 0, sum := 0, ck := 0, last := 0 }
      faults := 0
      answers := [.ok 0] }) ∧
    ∀ t, exec .reset s = .next t →
      txNeed t.tx = false ∧ verdict t = some .incomplete ∧ ∀ k, payRead t.pay k = payRead s.pay k

/-! ## TX -/

/-- R92: TXBEGIN starts a frame where none is in progress and answers 0; else it faults `F_TX_BUSY`
and the frame in progress continues unharmed. -/
def Obligations.TxbeginStartsAFrame : Prop :=
  (∀ w : Word, w.extractLsb' 28 4 = 0x1#4 →
    decodeWord w = .txbegin (w.extractLsb' 16 8) (w.extractLsb' 0 16)) ∧
  (∀ (s : State) (cmd : Byte) (len : Half), s.tx.active = false →
    exec (.txbegin cmd len) s = .next { s with
      tx := { active := true, idx := 0, cmd := cmd, len := len, sum := 0 }
      answers := [.ok 0] }) ∧
  (∀ (s : State) (cmd : Byte) (len : Half), s.tx.active = true →
    exec (.txbegin cmd len) s = .next { s with
      faults := s.faults ||| 0b00010#5
      answers := [.fault .txBusy] }) ∧
  (∀ (s t : State) (cmd : Byte) (len : Half), s.tx.active = false →
    exec (.txbegin cmd len) s = .next t → txNeed t.tx = false)

/-- R93: TXSTEP emits the frame byte at `tx_idx`, sums the bytes 1 .. 4+L, and goes on to the next
index, or, at the trailer, to idle; with no frame in progress it faults `F_TX_IDLE`. The premise
`tx_idx <= 6 + L` is R12's, kept by every step. -/
def Obligations.TxstepEmitsTheNextByte : Prop :=
  (∀ w : Word, w.extractLsb' 28 4 = 0x2#4 → decodeWord w = .txstep (w.extractLsb' 0 8)) ∧
  (∀ (s : State) (d : Byte), s.tx.active = false →
    exec (.txstep d) s = .next { s with
      faults := s.faults ||| 0b00100#5
      answers := [.fault .txIdle] }) ∧
  ∀ (s : State) (d : Byte), s.tx.active = true → s.tx.idx.toNat ≤ 6 + s.tx.len.toNat →
    let i := s.tx.idx.toNat
    let len := s.tx.len.toNat
    ∃ (out : Byte) (r : Word),
      (i = 0 → out = s.cfg.header) ∧
      (i = 1 → out = s.cfg.typeByte) ∧
      (i = 2 → out = s.tx.cmd) ∧
      (i = 3 → out.toNat = len / 256) ∧
      (i = 4 → out.toNat = len % 256) ∧
      (5 ≤ i → i < 5 + len → out = d) ∧
      (i = 5 + len → out = s.tx.sum) ∧
      (i = 6 + len → out = s.cfg.trailer) ∧
      r.toNat = out.toNat + (if i = 6 + len then 256 else 0) ∧
      exec (.txstep d) s = .next { s with
        tx := { s.tx with
          active := decide (i ≠ 6 + len)
          idx := if i = 6 + len then 0 else BitVec.ofNat 17 (i + 1)
          sum := if 1 ≤ i ∧ i ≤ 4 + len then s.tx.sum + out else s.tx.sum }
        answers := [.ok r] }

/-- R91: which byte each phase emits and which phase follows it; TXBEGIN leads from IDLE to HEADER,
and RESET to IDLE from every phase. -/
def Obligations.TxPhasesFollowTheTable : Prop :=
  (∀ (s t : State) (c : Byte) (l : Half), txPhase s.tx = .idle →
    exec (.txbegin c l) s = .next t → txPhase t.tx = .header) ∧
  (∀ s t : State, exec .reset s = .next t → txPhase t.tx = .idle) ∧
  ∀ (s : State) (d : Byte), s.tx.idx.toNat ≤ 6 + s.tx.len.toNat →
    ∃ t, exec (.txstep d) s = .next t ∧
      match txPhase s.tx with
      | .idle => t.answers = [.fault .txIdle] ∧ txPhase t.tx = .idle
      | .header => t.answers = [.ok (s.cfg.header.setWidth 32)] ∧ txPhase t.tx = .type
      | .type => t.answers = [.ok (s.cfg.typeByte.setWidth 32)] ∧ txPhase t.tx = .cmd
      | .cmd => t.answers = [.ok (s.tx.cmd.setWidth 32)] ∧ txPhase t.tx = .lenHi
      | .lenHi => t.answers = [.ok ((hi8 s.tx.len).setWidth 32)] ∧ txPhase t.tx = .lenLo
      | .lenLo => t.answers = [.ok ((lo8 s.tx.len).setWidth 32)] ∧
          txPhase t.tx = if 0 < s.tx.len.toNat then .payload else .cksum
      | .payload => t.answers = [.ok (d.setWidth 32)] ∧
          txPhase t.tx = if s.tx.idx.toNat + 1 < 5 + s.tx.len.toNat then .payload else .cksum
      | .cksum => t.answers = [.ok (s.tx.sum.setWidth 32)] ∧ txPhase t.tx = .trailer
      | .trailer => t.answers = [.ok (0x100#32 ||| s.cfg.trailer.setWidth 32)] ∧
          txPhase t.tx = .idle

/-- R54, R91, R98: nothing the host does, short of RESET, changes the command and length of the
frame in progress, and no operation but RESET and the trailer's TXSTEP ends it. -/
def Obligations.AFrameInProgressIsNotDisturbed : Prop :=
  ∀ (s t : State) (i : Instr), i.isHostOp = true → i ≠ .reset → s.tx.active = true →
    exec i s = .next t →
    t.tx.cmd = s.tx.cmd ∧ t.tx.len = s.tx.len ∧
    (t.tx.active = false → (∃ d, i = .txstep d) ∧ s.tx.idx.toNat = 6 + s.tx.len.toNat) ∧
    ((¬ ∃ d, i = .txstep d) → t.tx = s.tx)

/-- R171, with the `tx_need` of R19 and R94: TXSTAT reads index, active and need. -/
def Obligations.TxstatReadsTheTransmitStatus : Prop :=
  (∀ w : Word, w.extractLsb' 28 4 = 0x3#4 → decodeWord w = .txstat) ∧
  (∀ s : State, ∃ r : Word,
    exec .txstat s = .next { s with answers := [.ok r] } ∧
    r.toNat = s.tx.idx.toNat
      + (if s.tx.active = true then 2 ^ 17 else 0)
      + (if s.tx.active = true ∧ 5 ≤ s.tx.idx.toNat ∧ s.tx.idx.toNat < 5 + s.tx.len.toNat
          then 2 ^ 18 else 0)) ∧
  (∀ s : State, s.Inv → s.tx.active = false →
    exec .txstat s = .next { s with answers := [.ok 0] })

/-- R95: from an idle TX unit, TXBEGIN and |p| + 7 TXSTEPs, with p as the operands at indices
5 .. 4+|p|, and with any operations of the other units, status reads and reserved codes in between,
give back exactly the bytes of `Encode(c, p)`, r[8] on the last only, and end idle. -/
def Obligations.TxUnitEmitsEncode : Prop :=
  ∀ (s : State) (ops : List Instr) (c : Byte) (p ds : List Byte),
    s.tx.active = false → p.length ≤ 65535 →
    (∀ i ∈ ops, i.isHostOp = true ∧ i ≠ .reset) →
    ops.filter Instr.drivesTx = .txbegin c (BitVec.ofNat 16 p.length) :: ds.map .txstep →
    ds.length = p.length + 7 → (ds.drop 5).take p.length = p →
    ∃ t as, issueAll ops s = some (t, as) ∧
      as.length = ops.length ∧
      ((ops.zip as).filter fun x => x.1.drivesTx).map Prod.snd = encodeAnswers s.cfg c p ∧
      t.tx.active = false ∧ t.tx.idx = 0

/-! ## RX -/

/-- R121 (and R18): what RXPUSH writes at each run index, that everything else is unchanged, and
that it never faults. -/
def Obligations.RxpushTakesTheNextByte : Prop :=
  (∀ w : Word, w.extractLsb' 28 4 = 0x4#4 → decodeWord w = .rxpush (w.extractLsb' 0 8)) ∧
  ∀ (s : State) (b : Byte),
    let n := s.rx.count.toNat
    let len := s.rx.len.toNat
    ∃ t, exec (.rxpush b) s = .next t ∧
      t.answers = [.ok 0] ∧
      t.cfg = s.cfg ∧ t.tx = s.tx ∧ t.faults = s.faults ∧ t.port = s.port ∧
      t.rx.last = b ∧ t.rx.count.toNat = min (n + 1) 131071 ∧
      (n = 0 → t.rx.hdrOk = decide (b = s.cfg.header)) ∧
      (n ≠ 0 → t.rx.hdrOk = s.rx.hdrOk) ∧
      (n = 1 → t.rx.type = b ∧ t.rx.sum = b) ∧
      (n ≠ 1 → t.rx.type = s.rx.type) ∧
      (n = 2 → t.rx.cmd = b) ∧
      (n ≠ 2 → t.rx.cmd = s.rx.cmd) ∧
      (n = 3 → t.rx.len.toNat = 256 * b.toNat + len % 256) ∧
      (n = 4 → t.rx.len.toNat = 256 * (len / 256) + b.toNat) ∧
      (n ≠ 3 → n ≠ 4 → t.rx.len = s.rx.len) ∧
      (n = 2 ∨ n = 3 ∨ n = 4 ∨ (5 ≤ n ∧ n < 5 + len) → t.rx.sum = s.rx.sum + b) ∧
      (n = 0 ∨ (5 ≤ n ∧ 5 + len ≤ n) → t.rx.sum = s.rx.sum) ∧
      (5 ≤ n ∧ n = 5 + len → t.rx.ck = b) ∧
      (¬ (5 ≤ n ∧ n = 5 + len) → t.rx.ck = s.rx.ck) ∧
      (5 ≤ n → n < 5 + len →
        payRead t.pay (n - 5) = b ∧ ∀ k, k ≠ n - 5 → payRead t.pay k = payRead s.pay k) ∧
      (¬ (5 ≤ n ∧ n < 5 + len) → ∀ k, payRead t.pay k = payRead s.pay k)

/-- R122: RXCLR puts the RX registers at 0, leaves `rx_pay`, and answers 0. -/
def Obligations.RxclrDiscardsTheRun : Prop :=
  (∀ w : Word, w.extractLsb' 28 4 = 0x5#4 → decodeWord w = .rxclr) ∧
  (∀ s : State, exec .rxclr s = .next { s with
    rx := { count := 0, hdrOk := false, type := 0, cmd := 0, len := 0, sum := 0, ck := 0, last := 0 }
    answers := [.ok 0] }) ∧
  (∀ s t : State, exec .rxclr s = .next t →
    verdict t = some .incomplete ∧ exec .rxstat t = .next { t with answers := [.ok 0] })

/-- R120: what each verdict says of the registers. The eight tests in their order come to these
five conditions, of which exactly one holds. -/
def Obligations.VerdictsByTheirCauses : Prop :=
  ∀ s : State,
    let n := s.rx.count.toNat
    let len := s.rx.len.toNat
    (verdict s = some .incomplete ↔ n = 0 ∨ (s.rx.hdrOk = true ∧ n < len + 7)) ∧
    (verdict s = some .badMarker ↔
      n ≠ 0 ∧ (s.rx.hdrOk = false ∨ (len + 7 ≤ n ∧ s.rx.last ≠ s.cfg.trailer))) ∧
    (verdict s = some .lengthMismatch ↔
      s.rx.hdrOk = true ∧ len + 7 < n ∧ s.rx.last = s.cfg.trailer) ∧
    (verdict s = some .checksumMismatch ↔
      s.rx.hdrOk = true ∧ n = len + 7 ∧ s.rx.last = s.cfg.trailer ∧ s.rx.sum ≠ s.rx.ck) ∧
    (verdict s = none ↔
      s.rx.hdrOk = true ∧ n = len + 7 ∧ s.rx.last = s.cfg.trailer ∧ s.rx.sum = s.rx.ck)

/-- R123, R76: RXSTAT reads the verdict's code and the byte count, and changes nothing. -/
def Obligations.RxstatReadsVerdictAndCount : Prop :=
  (∀ w : Word, w.extractLsb' 28 4 = 0x6#4 → decodeWord w = .rxstat) ∧
  ∀ s : State, ∃ r : Word,
    exec .rxstat s = .next { s with answers := [.ok r] } ∧
    (verdict s = some .incomplete → r.toNat = 0 + 8 * s.rx.count.toNat) ∧
    (verdict s = none → r.toNat = 1 + 8 * s.rx.count.toNat) ∧
    (verdict s = some .badMarker → r.toNat = 2 + 8 * s.rx.count.toNat) ∧
    (verdict s = some .lengthMismatch → r.toNat = 3 + 8 * s.rx.count.toNat) ∧
    (verdict s = some .checksumMismatch → r.toNat = 4 + 8 * s.rx.count.toNat)

/-- R124: RXHDR reads type, command and length while the verdict is Ok; else it faults
`F_RX_INVALID`. -/
def Obligations.RxhdrReadsTheHeader : Prop :=
  (∀ w : Word, w.extractLsb' 28 4 = 0x7#4 → decodeWord w = .rxhdr) ∧
  (∀ s : State, verdict s = none → ∃ r : Word,
    exec .rxhdr s = .next { s with answers := [.ok r] } ∧
    r.toNat = s.rx.type.toNat * 2 ^ 24 + s.rx.cmd.toNat * 2 ^ 16 + s.rx.len.toNat) ∧
  (∀ s : State, verdict s ≠ none →
    exec .rxhdr s = .next { s with
      faults := s.faults ||| 0b01000#5
      answers := [.fault .rxInvalid] })

/-- R125: RXGET k reads payload byte k while the verdict is Ok and k is below the payload length;
else it faults `F_RX_INVALID`. -/
def Obligations.RxgetReadsAPayloadByte : Prop :=
  (∀ w : Word, w.extractLsb' 28 4 = 0x8#4 → decodeWord w = .rxget (w.extractLsb' 0 16)) ∧
  (∀ (s : State) (k : Half), verdict s = none → k.toNat < s.rx.len.toNat →
    exec (.rxget k) s = .next { s with
      answers := [.ok ((payRead s.pay k.toNat).setWidth 32)] }) ∧
  (∀ (s : State) (k : Half), verdict s ≠ none ∨ s.rx.len.toNat ≤ k.toNat →
    exec (.rxget k) s = .next { s with
      faults := s.faults ||| 0b01000#5
      answers := [.fault .rxInvalid] })

/-- R16, R18: what the RX registers and `rx_pay` hold after RXCLR or RESET and the pushes of a run
`b` of any length, whatever operations that write no RX register stand in between. -/
def Obligations.RxRegistersHoldTheRun : Prop :=
  ∀ (s : State) (ops : List Instr) (first : Instr) (b : List Byte),
    (∀ i ∈ ops, i.isHostOp = true) → first = .rxclr ∨ first = .reset →
    ops.filter Instr.writesRx = first :: b.map .rxpush →
    let n := b.length
    let len := be16 (b.getD 3 0) (b.getD 4 0)
    ∃ t as, issueAll ops s = some (t, as) ∧
      t.rx.count.toNat = min n 131071 ∧
      (1 ≤ n → t.rx.hdrOk = decide (b.getD 0 0 = s.cfg.header) ∧ t.rx.last = b.getD (n - 1) 0) ∧
      (2 ≤ n → t.rx.type = b.getD 1 0) ∧
      (3 ≤ n → t.rx.cmd = b.getD 2 0) ∧
      (5 ≤ n → t.rx.len.toNat = len ∧
        t.rx.sum = sum8 ((b.drop 1).take (min (n - 1) (4 + len))) ∧
        ∀ k, k < min (n - 5) len → payRead t.pay k = b.getD (5 + k) 0) ∧
      (5 ≤ n → 6 + len ≤ n → t.rx.ck = b.getD (5 + len) 0)

/-- R126: after RXCLR or RESET and the pushes of a run `b` of any length, whatever operations that
write no RX register stand in between, the verdict is that of `Decode(b)`, and on Ok the registers
and RXGET show the decoded frame. -/
def Obligations.RxVerdictIsDecodeOfTheRun : Prop :=
  ∀ (s : State) (ops : List Instr) (first : Instr) (b : List Byte),
    (∀ i ∈ ops, i.isHostOp = true) → first = .rxclr ∨ first = .reset →
    ops.filter Instr.writesRx = first :: b.map .rxpush →
    ∃ t as, issueAll ops s = some (t, as) ∧
      verdict t = runVerdict s.cfg b ∧
      ∀ f, frameDecode s.cfg b = .ok f →
        t.rx.type = f.type ∧ t.rx.cmd = f.command ∧ t.rx.len.toNat = f.payload.length ∧
        ∀ k : Half, k.toNat < f.payload.length →
          exec (.rxget k) t = .next { t with
            answers := [.ok ((f.payload.getD k.toNat 0).setWidth 32)] }

/-- R127: once the verdict is not `Incomplete`, further pushes give only `BadMarker` or
`LengthMismatch`; the first verdict other than `Incomplete` of a run that starts with `HEADER`
comes at `rx_count = rx_len + 7`. -/
def Obligations.VerdictsAlongOneRun : Prop :=
  (∀ (s t : State) (b : Byte), exec (.rxpush b) s = .next t →
    (verdict s ≠ some .incomplete →
      verdict t = some (if s.rx.hdrOk = true ∧ b = s.cfg.trailer then .lengthMismatch
        else .badMarker)) ∧
    (verdict s = some .incomplete → t.rx.hdrOk = true → verdict t ≠ some .incomplete →
      t.rx.count.toNat = t.rx.len.toNat + 7 ∧
      (verdict t = none ∨ verdict t = some .badMarker ∨ verdict t = some .checksumMismatch))) ∧
  (∀ (s : State) (bs : List Byte), bs ≠ [] → verdict s ≠ some .incomplete →
    ∃ t as, issueAll (bs.map .rxpush) s = some (t, as) ∧
      (verdict t = some .badMarker ∨ verdict t = some .lengthMismatch))

/-- R17, R124, R125: the decoded frame is the same under every operation but RXPUSH, RXCLR and
RESET. -/
def Obligations.TheDecodedFrameIsStable : Prop :=
  ∀ (s t : State) (i : Instr), i.isHostOp = true → i.writesRx = false → verdict s = none →
    exec i s = .next t →
    verdict t = none ∧ t.rx.type = s.rx.type ∧ t.rx.cmd = s.rx.cmd ∧ t.rx.len = s.rx.len ∧
    ∀ k, payRead t.pay k = payRead s.pay k

/-- R24, R25: `rx_pay` outside the bytes stored in the present run is unobservable. Two states that
differ only there step alike: the same answers, and again two such states. -/
def Obligations.UnwrittenPayloadIsUnobservable : Prop :=
  ∀ (s : State) (m : Memory), (∀ k, k < rxStored s.rx → payGet? m k = payGet? s.pay k) →
    (∀ t, step s = .next t → ∃ m', step { s with pay := m } = .next { t with pay := m' } ∧
      ∀ k, k < rxStored t.rx → payGet? m' k = payGet? t.pay k) ∧
    (∀ r, step s = .refused r → step { s with pay := m } = .refused r)

/-! ## RSSI -/

/-- R152, R150: RSSI answers the clamped table entry in 8 bits of two's complement, the upper bits
0, and changes nothing; curve select 3 faults `F_BAD_CURVE`. -/
def Obligations.RssiReadsTheClampedEntry : Prop :=
  (∀ w : Word, w.extractLsb' 28 4 = 0x9#4 →
    (w.extractLsb' 8 2 = 0#2 → decodeWord w = .rssi .linear (w.extractLsb' 0 8)) ∧
    (w.extractLsb' 8 2 = 1#2 → decodeWord w = .rssi .curved (w.extractLsb' 0 8)) ∧
    (w.extractLsb' 8 2 = 2#2 → decodeWord w = .rssi .custom (w.extractLsb' 0 8)) ∧
    (w.extractLsb' 8 2 = 3#2 → decodeWord w = .rssiCurve3 (w.extractLsb' 0 8))) ∧
  (∀ (s : State) (c : Curve) (raw : Byte), ∃ e : Byte,
    e.toInt = (if s.cfg.entry c raw < s.cfg.rssiMin.toInt then s.cfg.rssiMin.toInt
      else if s.cfg.rssiMax.toInt < s.cfg.entry c raw then s.cfg.rssiMax.toInt
      else s.cfg.entry c raw) ∧
    exec (.rssi c raw) s = .next { s with answers := [.ok (e.setWidth 32)] }) ∧
  (∀ (s : State) (raw : Byte),
    exec (.rssiCurve3 raw) s = .next { s with
      faults := s.faults ||| 0b10000#5
      answers := [.fault .badCurve] })

/-- R151: the estimate lies in the band, does not decrease with the raw byte, and depends on the
operands and the configuration alone. -/
def Obligations.EstimateLaws : Prop :=
  (∀ (cfg : Config) (raw : Byte) (c : Curve), cfg.rssiMin.toInt ≤ cfg.rssiMax.toInt →
    cfg.rssiMin.toInt ≤ estimate cfg raw c ∧ estimate cfg raw c ≤ cfg.rssiMax.toInt) ∧
  (∀ (cfg : Config) (a b : Byte) (c : Curve), cfg.Valid → a.toNat ≤ b.toNat →
    estimate cfg a c ≤ estimate cfg b c) ∧
  (∀ (s s' : State) (raw : Byte) (c : Curve), s.cfg = s'.cfg →
    ∃ t t', exec (.rssi c raw) s = .next t ∧ exec (.rssi c raw) s' = .next t' ∧
      t.answers = t'.answers)

/-! ## Faults and the system operations -/

/-- R173: FAULTS reads the sticky register and does not clear it. -/
def Obligations.FaultsReadsTheStickyRegister : Prop :=
  (∀ w : Word, w.extractLsb' 28 4 = 0xA#4 → decodeWord w = .faults) ∧
  ∀ s : State, ∃ r : Word,
    exec .faults s = .next { s with answers := [.ok r] } ∧ r.toNat = s.faults.toNat

/-- R174, R78: a command word with a reserved operation code faults `F_ILLEGAL_OP` and changes
nothing else. -/
def Obligations.ReservedCodesFault : Prop :=
  (∀ w : Word, 0xB ≤ (w.extractLsb' 28 4).toNat →
    decodeWord w ∈ [Instr.reservedB, .reservedC, .reservedD, .reservedE, .reservedF]) ∧
  ∀ (s : State) (i : Instr), i ∈ [Instr.reservedB, .reservedC, .reservedD, .reservedE, .reservedF] →
    exec i s = .next { s with
      faults := s.faults ||| 0b00001#5
      answers := [.fault .illegalOp] }

/-- R191: the complete list of fault causes. RESET, TXSTAT, RXPUSH, RXCLR, RXSTAT and FAULTS, on no
line of it, never fault. -/
def Obligations.FaultCausesAreComplete : Prop :=
  ∀ (s : State) (i : Instr), i.isHostOp = true → ∃ t, exec i s = .next t ∧
    (t.answers = [.fault .illegalOp] ↔
      i ∈ [Instr.reservedB, .reservedC, .reservedD, .reservedE, .reservedF]) ∧
    (t.answers = [.fault .txBusy] ↔ (∃ c l, i = .txbegin c l) ∧ s.tx.active = true) ∧
    (t.answers = [.fault .txIdle] ↔ (∃ d, i = .txstep d) ∧ s.tx.active = false) ∧
    (t.answers = [.fault .rxInvalid] ↔
      (i = .rxhdr ∧ verdict s ≠ none) ∨
      ∃ k, i = .rxget k ∧ (verdict s ≠ none ∨ s.rx.len.toNat ≤ k.toNat)) ∧
    (t.answers = [.fault .badCurve] ↔ ∃ raw, i = .rssiCurve3 raw)

/-- R190, R20: a faulting operation sets its own bit of `faults` and changes nothing else; an
operation that does not fault and is not RESET changes no bit of it; RESET clears them all; and the
bits that are set change nothing in what an operation other than FAULTS does. -/
def Obligations.FaultsArePreciseAndSticky : Prop :=
  ∀ (s t : State) (i : Instr), i.isHostOp = true → exec i s = .next t →
    (t.answers = [.fault .illegalOp] →
      t = { s with faults := s.faults ||| 0b00001#5, answers := t.answers }) ∧
    (t.answers = [.fault .txBusy] →
      t = { s with faults := s.faults ||| 0b00010#5, answers := t.answers }) ∧
    (t.answers = [.fault .txIdle] →
      t = { s with faults := s.faults ||| 0b00100#5, answers := t.answers }) ∧
    (t.answers = [.fault .rxInvalid] →
      t = { s with faults := s.faults ||| 0b01000#5, answers := t.answers }) ∧
    (t.answers = [.fault .badCurve] →
      t = { s with faults := s.faults ||| 0b10000#5, answers := t.answers }) ∧
    ((∃ r, t.answers = [.ok r]) → i ≠ .reset → t.faults = s.faults) ∧
    (i = .reset → t.faults = 0) ∧
    (i ≠ .faults → ∀ g : BitVec 5, ∃ t', exec i { s with faults := g } = .next t' ∧
      t'.answers = t.answers ∧ { t' with faults := t.faults } = t)

/-- R48: TXSTAT, RXSTAT, RXHDR, RXGET, RSSI and FAULTS change no state when they answer ok, and
doing one of them twice is doing it once, whether it answers ok or faults. -/
def Obligations.StatusReadsAreIdempotent : Prop :=
  ∀ (s : State) (i : Instr),
    (i = .txstat ∨ i = .rxstat ∨ i = .rxhdr ∨ (∃ k, i = .rxget k) ∨ (∃ c r, i = .rssi c r) ∨
      (∃ r, i = .rssiCurve3 r) ∨ i = .faults) →
    ∃ t, exec i s = .next t ∧ exec i t = .next t ∧
      ((∃ r, t.answers = [.ok r]) → t = { s with answers := t.answers })

/-- R10, R11, R15, R41, R52: the frame of every host operation. The configuration and the pending
requests are unchanged; only TXBEGIN, TXSTEP and RESET write a TX register; only RXPUSH, RXCLR and
RESET write an RX register; and the only byte of `rx_pay` that can change is the one an RXPUSH in
phase PAYLOAD stores, at `rx_count - 5`. -/
def Obligations.OperationsTouchOnlyTheirOwnUnit : Prop :=
  ∀ (s : State) (i : Instr), i.isHostOp = true → ∃ t, exec i s = .next t ∧
    t.cfg = s.cfg ∧ t.port = s.port ∧
    (i.drivesTx = false → i ≠ .reset → t.tx = s.tx) ∧
    (i.writesRx = false → t.rx = s.rx) ∧
    (i = .reset ∨ t.faults = s.faults ∨ ∃ f, t.faults = s.faults ||| faultBit f) ∧
    (∀ k, (¬ ∃ b, i = .rxpush b ∧ 5 ≤ s.rx.count.toNat ∧
        s.rx.count.toNat < 5 + s.rx.len.toNat ∧ k = s.rx.count.toNat - 5) →
      payRead t.pay k = payRead s.pay k)

/-- R52: swapping two adjacent operations of different units gives the same final state and the
same results. -/
def Obligations.OperationsOfDifferentUnitsCommute : Prop :=
  ∀ (s : State) (i j : Instr) (u v : BlockUnit),
    i.unit? = some u → j.unit? = some v → u ≠ v →
    ∃ a b c d, exec i s = .next a ∧ exec j a = .next b ∧ exec j s = .next c ∧ exec i c = .next d ∧
      a.answers = d.answers ∧ b.answers = c.answers ∧
      { b with answers := [] } = { d with answers := [] }

/-! ## The wire frame -/

/-- R60, with the length of R61 and the sum of R62: every field of a frame stands at its index. -/
def Obligations.FrameLayout : Prop :=
  ∀ (cfg : Config) (t c : Byte) (p : List Byte), p.length ≤ 65535 →
    let b := frameBytes cfg t c p
    let len := p.length
    b.length = len + 7 ∧
    b.getD 0 0 = cfg.header ∧ b.getD 1 0 = t ∧ b.getD 2 0 = c ∧
    (b.getD 3 0).toNat = len / 256 ∧ (b.getD 4 0).toNat = len % 256 ∧
    (∀ k, k < len → b.getD (5 + k) 0 = p.getD k 0) ∧
    (b.getD (5 + len) 0).toNat = (((b.drop 1).take (4 + len)).map BitVec.toNat).sum % 256 ∧
    b.getD (6 + len) 0 = cfg.trailer ∧
    frameEncode cfg c p = frameBytes cfg cfg.typeByte c p

/-- R64: a run is a valid frame, by the source's four invariants, exactly if it is the frame of its
own type, command and payload bytes. -/
def Obligations.ValidFramesAreFrameBytes : Prop :=
  ∀ (cfg : Config) (b : List Byte), 7 ≤ b.length →
    let n := b.length
    ((b.getD 0 0 = cfg.header ∧ b.getD (n - 1) 0 = cfg.trailer ∧
        be16 (b.getD 3 0) (b.getD 4 0) = n - 7 ∧
        sum8 ((b.drop 1).take (n - 3)) = b.getD (n - 2) 0) ↔
      b = frameBytes cfg (b.getD 1 0) (b.getD 2 0) ((b.drop 5).take (n - 7)) ∧ n - 7 ≤ 65535)

/-- R114: `Decode(b)` is Ok(t, c, p) exactly if `b` is `FrameBytes(t, c, p)`. -/
def Obligations.DecodeIsExact : Prop :=
  ∀ (cfg : Config) (b : List Byte) (f : Frame),
    (frameDecode cfg b = .ok f ↔
      f.payload.length ≤ 65535 ∧ b = frameBytes cfg f.type f.command f.payload) ∧
    (frameDecode cfg b = .ok f →
      f.type = b.getD 1 0 ∧ f.command = b.getD 2 0 ∧
      f.payload = (b.drop 5).take (b.length - 7) ∧
      f.payload.length = be16 (b.getD 3 0) (b.getD 4 0))

/-- R96: `Decode(Encode(c, p))` is Ok with `TYPE`, c and p; and the encoded bytes, pushed after an
RXCLR, give verdict Ok and show them. -/
def Obligations.RoundTrip : Prop :=
  ∀ (cfg : Config) (c : Byte) (p : List Byte), p.length ≤ 65535 →
    frameDecode cfg (frameEncode cfg c p) =
      .ok { type := cfg.typeByte, command := c, payload := p } ∧
    ∀ s : State, s.cfg = cfg → ∃ t as,
      issueAll (.rxclr :: (frameEncode cfg c p).map .rxpush) s = some (t, as) ∧
      verdict t = none ∧ t.rx.type = cfg.typeByte ∧ t.rx.cmd = c ∧ t.rx.len.toNat = p.length ∧
      ∀ k, k < p.length → payRead t.pay k = p.getD k 0

/-- R111: a run whose first byte is not `HEADER` is `BadMarker` at its first byte and at every later
length, and `Incomplete` is given only to the empty run and to runs that start with `HEADER`. -/
def Obligations.HeaderIsTestedFirst : Prop :=
  ∀ (cfg : Config) (b : List Byte), b ≠ [] →
    (b.getD 0 0 ≠ cfg.header → frameDecode cfg b = .error .badMarker) ∧
    (frameDecode cfg b = .error .incomplete → b.getD 0 0 = cfg.header)

/-- R112: exactly which runs are `Incomplete`. -/
def Obligations.IncompleteExactlyWhen : Prop :=
  ∀ (cfg : Config) (b : List Byte),
    frameDecode cfg b = .error .incomplete ↔
      b = [] ∨
      (b.getD 0 0 = cfg.header ∧
        (b.length < 5 ∨ b.length < be16 (b.getD 3 0) (b.getD 4 0) + 7))

/-- R115: the verdict of a frame in which one bit of one byte is inverted, by the byte's place. -/
def Obligations.SingleBitCorruption : Prop :=
  ∀ (cfg : Config) (t c : Byte) (p : List Byte) (i j : Nat), p.length ≤ 65535 →
    i < p.length + 7 → j < 8 →
    let len := p.length
    let w := frameBytes cfg t c p
    let w' := w.set i (w.getD i 0 ^^^ (1#8 <<< j))
    let len' := be16 (w'.getD 3 0) (w'.getD 4 0)
    (i = 0 → frameDecode cfg w' = .error .badMarker) ∧
    (i = 1 ∨ i = 2 → frameDecode cfg w' = .error .checksumMismatch) ∧
    (i = 3 ∨ i = 4 → (len < len' → frameDecode cfg w' = .error .incomplete) ∧
      (len' < len → frameDecode cfg w' = .error .lengthMismatch) ∧ len' ≠ len) ∧
    (5 ≤ i → i < 6 + len → frameDecode cfg w' = .error .checksumMismatch) ∧
    (i = 6 + len → frameDecode cfg w' = .error .badMarker)

/-- R116: every proper prefix of a valid frame is `Incomplete`. -/
def Obligations.PrefixesAreIncomplete : Prop :=
  ∀ (cfg : Config) (t c : Byte) (p : List Byte) (k : Nat), p.length ≤ 65535 →
    k < p.length + 7 →
    frameDecode cfg ((frameBytes cfg t c p).take k) = .error .incomplete

/-- R117: bytes after a frame make the run `BadMarker` or `LengthMismatch`. -/
def Obligations.BytesAfterAFrame : Prop :=
  ∀ (cfg : Config) (t c : Byte) (p x : List Byte), p.length ≤ 65535 → x ≠ [] →
    frameDecode cfg (frameBytes cfg t c p ++ x) =
      .error (if x.getD (x.length - 1) 0 = cfg.trailer then .lengthMismatch else .badMarker)

/-! ## Frame instructions (the eight FRAME rows) -/

/-- R81, R70, R71 and log entry 7: each of FRAME.INVENTORY, FRAME.MULTI_POLL, FRAME.STOP_MULTI,
FRAME.SELECT, FRAME.READ, FRAME.WRITE, FRAME.ERROR and FRAME.other performs, in one step and from
any state, the host operations that R81 expands ENCODE (sent) or DECODE (received) to, and gives
back all their answers in order. -/
def Obligations.FrameInstructionsAreTheirExpansions : Prop :=
  ∀ (s : State) (i : Instr) (c : Byte) (p : List Byte), p.length ≤ 65535 →
    (i.frame? s.cfg = some (.sent, c, p) → ∃ u as,
      issueAll (.txbegin c (BitVec.ofNat 16 p.length) ::
        (List.replicate 5 0 ++ p ++ [0, 0]).map .txstep) s = some (u, as) ∧
      exec i s = .next { u with answers := as }) ∧
    (∀ t, i.frame? s.cfg = some (.received t, c, p) → ∃ u as,
      issueAll (.rxclr :: (frameBytes s.cfg t c p).map .rxpush ++ [.rxstat]) s = some (u, as) ∧
      exec i s = .next { u with answers := as })

/-- R81, R95 and log entry 7: from an idle TX unit a frame instruction on the sent side, of any of
the eight FRAME rows, gives back the bytes of `Encode(c, p)`, leaves the TX unit idle with the
frame's command, length and sum, and changes nothing else. -/
def Obligations.SentFramesAreEncoded : Prop :=
  ∀ (s : State) (i : Instr) (c : Byte) (p : List Byte), p.length ≤ 65535 →
    i.frame? s.cfg = some (.sent, c, p) → s.tx.active = false →
    exec i s = .next { s with
      tx := {
        active := false, idx := 0, cmd := c, len := BitVec.ofNat 16 p.length
        sum := sum8 (frameSpan s.cfg.typeByte c p) }
      answers := encodeAnswers s.cfg c p }

/-- R81, R126, R16 and log entry 7: a frame instruction on the received side, of any of the eight
FRAME rows and from any state, leaves the RX unit with the frame decoded and verdict Ok, stores its
payload in `rx_pay`, answers the verdict last, and changes nothing else. -/
def Obligations.ReceivedFramesAreDecoded : Prop :=
  ∀ (s : State) (i : Instr) (ty c : Byte) (p : List Byte), p.length ≤ 65535 →
    i.frame? s.cfg = some (.received ty, c, p) →
    ∃ t, exec i s = .next t ∧
      t.cfg = s.cfg ∧ t.tx = s.tx ∧ t.faults = s.faults ∧ t.port = s.port ∧
      t.rx = {
        count := BitVec.ofNat 17 (p.length + 7), hdrOk := true, type := ty, cmd := c
        len := BitVec.ofNat 16 p.length, sum := sum8 (frameSpan ty c p)
        ck := sum8 (frameSpan ty c p), last := s.cfg.trailer } ∧
      verdict t = none ∧
      (∀ k, k < p.length → payRead t.pay k = p.getD k 0) ∧
      (∀ k, p.length ≤ k → payRead t.pay k = payRead s.pay k) ∧
      t.answers = List.replicate (p.length + 8) (.ok 0)
        ++ [.ok (BitVec.ofNat 32 (1 + 8 * (p.length + 7)))]

/-- R81, R110 and log entry 8: a DECODE request of a run that is no frame is performed all the same:
its last answer is RXSTAT's, with the code of the run's decode error. -/
def Obligations.RunsThatAreNoFrameAreDecodedToo : Prop :=
  ∀ (s : State) (b : List Byte) (rest : List Request) (e : DecodeError),
    s.port = .decode b :: rest → frameDecode s.cfg b = .error e →
    ∃ t, step s = .next t ∧ verdict t = some e ∧ t.port = rest ∧
      t.tx = s.tx ∧ t.faults = s.faults ∧
      t.answers = List.replicate (b.length + 1) (.ok 0)
        ++ [.ok (BitVec.ofNat 32 ((verdictCode (some e)).toNat + 8 * min b.length 131071))]

/-- R13, R90: a payload longer than 65535 bytes cannot be asked for: each of the eight FRAME rows
stops on it by name, on both sides, and so does an ENCODE request. -/
def Obligations.LongPayloadsAreRefused : Prop :=
  (∀ (s : State) (i : Instr) (way : Way) (c : Byte) (p : List Byte), 65535 < p.length →
    i.frame? s.cfg = some (way, c, p) → exec i s = .refused .payloadTooLong) ∧
  (∀ (s : State) (c : Byte) (p : List Byte) (rest : List Request), 65535 < p.length →
    s.port = .encode c p :: rest → step s = .refused .payloadTooLong)

/-- R81: READFRAME on a decoded frame gives back its header word and its payload bytes in order. -/
def Obligations.ReadframeReadsTheFrame : Prop :=
  ∀ s : State, verdict s = none → ∃ r : Word,
    r.toNat = s.rx.type.toNat * 2 ^ 24 + s.rx.cmd.toNat * 2 ^ 16 + s.rx.len.toNat ∧
    readFrame s = { s with
      answers := .ok r ::
        (List.range s.rx.len.toNat).map fun k => .ok ((payRead s.pay k).setWidth 32) }

/-! ## The whole machine -/

/-- R21, R22: no step changes the configuration. -/
def Obligations.ConfigurationIsHardwired : Prop :=
  ∀ s t : State, step s = .next t → t.cfg = s.cfg

/-- R170, R190, R20: no step but one that performs RESET clears a fault bit. -/
def Obligations.OnlyResetClearsAFaultBit : Prop :=
  ∀ s t : State, step s = .next t →
    s.faults &&& t.faults = s.faults ∨
    ∃ w rest, s.port = .word w :: rest ∧ decodeWord w = .reset ∧ t.faults = 0

/-- The invariant of R4, R12, R15 and R16 (`State.Inv`) holds after power-up. That the free
configuration obeys R4 is the model's own construction (log entry 2). -/
def Obligations.ResetMeetsTheInvariant : Prop := State.reset.Inv

/-- R12, R16, R24 and R4: every step from a state that meets the invariant, be it a host operation,
a whole frame or a run that is no frame, gives a state that meets it. -/
def Obligations.EveryStepKeepsTheInvariant : Prop :=
  ∀ s t : State, s.Inv → step s = .next t → t.Inv
end

