-- ==== Sys2Proof/Laws/Words.lean ====
section
/-! SUPPORT. Words, fields and byte halves as numbers: each concatenation and each bit slice of the
encodings as sums, quotients and remainders. -/

namespace Sys2Proof

/-- A concatenation is the high part scaled plus the low part. -/
theorem toNat_append_add {m n : Nat} (x : BitVec m) (y : BitVec n) :
    (x ++ y).toNat = x.toNat * 2 ^ n + y.toNat := by
  rw [BitVec.toNat_append, ← Nat.shiftLeft_add_eq_or_of_lt y.isLt, Nat.shiftLeft_eq]

/-- A bit slice is a quotient and a remainder. -/
theorem toNat_slice {m : Nat} (x : BitVec m) (i n : Nat) :
    (x.extractLsb' i n).toNat = x.toNat / 2 ^ i % 2 ^ n := by
  rw [BitVec.extractLsb'_toNat, Nat.shiftRight_eq_div_pow]

theorem hi8_toNat (n : Half) : (hi8 n).toNat = n.toNat / 256 := by
  have := n.isLt
  rw [hi8, toNat_slice]
  omega

theorem lo8_toNat (n : Half) : (lo8 n).toNat = n.toNat % 256 := by
  rw [lo8, toNat_slice]
  omega

/-- The two length bytes give the length back (R61). -/
theorem be16_hi8_lo8 (n : Half) : be16 (hi8 n) (lo8 n) = n.toNat := by
  rw [be16, hi8_toNat, lo8_toNat]
  omega

theorem append_toNat (h l : Byte) : (h ++ l : Half).toNat = be16 h l := by
  rw [toNat_append_add, be16]
  omega

@[simp] theorem hi8_append (h l : Byte) : hi8 (h ++ l) = h := by
  apply BitVec.eq_of_toNat_eq
  have := l.isLt
  rw [hi8_toNat, append_toNat, be16]
  omega

@[simp] theorem lo8_append (h l : Byte) : lo8 (h ++ l) = l := by
  apply BitVec.eq_of_toNat_eq
  have := l.isLt
  rw [lo8_toNat, append_toNat, be16]
  omega

theorem hostWord_toNat (op : BitVec 4) (cmd : Byte) (half : Half) :
    (hostWord op cmd half).toNat = op.toNat * 2 ^ 28 + cmd.toNat * 2 ^ 16 + half.toNat := by
  rw [hostWord, toNat_append_add, toNat_append_add, toNat_append_add]
  simp
  omega

@[simp] theorem opField_hostWord (op : BitVec 4) (cmd : Byte) (half : Half) :
    opField (hostWord op cmd half) = op := by
  apply BitVec.eq_of_toNat_eq
  have := op.isLt
  have := cmd.isLt
  have := half.isLt
  rw [opField, toNat_slice, hostWord_toNat]
  omega

@[simp] theorem cmdField_hostWord (op : BitVec 4) (cmd : Byte) (half : Half) :
    cmdField (hostWord op cmd half) = cmd := by
  apply BitVec.eq_of_toNat_eq
  have := cmd.isLt
  have := half.isLt
  rw [cmdField, toNat_slice, hostWord_toNat]
  omega

@[simp] theorem halfField_hostWord (op : BitVec 4) (cmd : Byte) (half : Half) :
    halfField (hostWord op cmd half) = half := by
  apply BitVec.eq_of_toNat_eq
  have := half.isLt
  rw [halfField, toNat_slice, hostWord_toNat]
  omega

theorem byteField_hostWord (op : BitVec 4) (cmd : Byte) (half : Half) :
    byteField (hostWord op cmd half) = lo8 half := by
  apply BitVec.eq_of_toNat_eq
  rw [byteField, toNat_slice, hostWord_toNat, lo8_toNat]
  omega

theorem curveField_hostWord (op : BitVec 4) (cmd : Byte) (half : Half) :
    (curveField (hostWord op cmd half)).toNat = half.toNat / 256 % 4 := by
  rw [curveField, toNat_slice, hostWord_toNat]
  omega

theorem rssiOperand_toNat (v : BitVec 2) (raw : Byte) :
    (rssiOperand v raw).toNat = 256 * v.toNat + raw.toNat := by
  rw [rssiOperand, toNat_append_add, toNat_append_add]
  simp
  omega

theorem sum8_append (a b : List Byte) : sum8 (a ++ b) = sum8 a + sum8 b := by
  induction a with
  | nil => simp [sum8]
  | cons x a ih => simp [sum8, ih, BitVec.add_assoc]

/-- `Sum8` as the remainder of the unbounded sum (R6). -/
theorem sum8_toNat (l : List Byte) : (sum8 l).toNat = (l.map BitVec.toNat).sum % 256 := by
  induction l with
  | nil => rfl
  | cons x l ih => simp [sum8, ih]

namespace Machine

/-- The result word of `TXSTEP` as a number (R75). -/
theorem txstepWord_toNat (out : Byte) (l : Bool) :
    (txstepWord out l).toNat = out.toNat + if l then 256 else 0 := by
  rw [txstepWord, toNat_append_add, toNat_append_add]
  cases l <;> simp
  omega

theorem byteWord_eq_setWidth (b : Byte) : byteWord b = b.setWidth 32 := by
  apply BitVec.eq_of_toNat_eq
  have := b.isLt
  rw [byteWord, toNat_append_add]
  simp
  omega

end Machine

end Sys2Proof
end

