-- ==== Sys2Proof/Laws/Frames.lean ====
section
/-! SUPPORT. The bytes of a frame at their indices (R49, R60), and the frame instructions by their
command byte (R70). -/

namespace Sys2Proof

variable (cfg : Config) (t c : Byte) (p : List Byte)

theorem frameSpan_length : (frameSpan t c p).length = p.length + 4 := by simp [frameSpan]

theorem frameBytes_length : (frameBytes cfg t c p).length = p.length + 7 := by
  simp [frameBytes, frameSpan_length]

/-- The length field of a payload that fits declares its length (R61). -/
theorem be16_payload_length {p : List Byte} (h : p.length ≤ 65535) :
    be16 (hi8 (BitVec.ofNat 16 p.length)) (lo8 (BitVec.ofNat 16 p.length)) = p.length := by
  rw [be16_hi8_lo8]
  simp
  omega

/-- The five head bytes. -/
theorem frameBytes_head :
    (frameBytes cfg t c p).getD 0 0 = cfg.header ∧ (frameBytes cfg t c p).getD 1 0 = t ∧
    (frameBytes cfg t c p).getD 2 0 = c ∧
    (frameBytes cfg t c p).getD 3 0 = hi8 (BitVec.ofNat 16 p.length) ∧
    (frameBytes cfg t c p).getD 4 0 = lo8 (BitVec.ofNat 16 p.length) := by
  simp [frameBytes, frameSpan]

theorem frameBytes_payload {k : Nat} (h : k < p.length) :
    (frameBytes cfg t c p).getD (5 + k) 0 = p.getD k 0 := by
  simp only [frameBytes, frameSpan, List.getD_eq_getElem?_getD]
  rw [Nat.add_comm 5 k]
  simp [List.getElem?_append_left h]

theorem frameBytes_checksum :
    (frameBytes cfg t c p).getD (5 + p.length) 0 = sum8 (frameSpan t c p) := by
  have e : 5 + p.length = ([cfg.header] ++ frameSpan t c p).length := by
    simp [frameSpan_length]
    omega
  rw [frameBytes, e, List.getD_eq_getElem?_getD, List.getElem?_append_right (le_refl _)]
  simp

theorem frameBytes_trailer : (frameBytes cfg t c p).getD (6 + p.length) 0 = cfg.trailer := by
  have e : 6 + p.length = ([cfg.header] ++ frameSpan t c p).length + 1 := by
    simp [frameSpan_length]
    omega
  rw [frameBytes, e, List.getD_eq_getElem?_getD, List.getElem?_append_right (by omega)]
  simp

/-- The summed span lies behind the header byte (R62). -/
theorem frameBytes_span :
    ((frameBytes cfg t c p).drop 1).take (4 + p.length) = frameSpan t c p := by
  have e : 4 + p.length = (frameSpan t c p).length := by
    rw [frameSpan_length]
    omega
  simp only [frameBytes, List.cons_append, List.drop_succ_cons, List.drop_zero]
  rw [e]
  simp

/-- The frame instruction of a payload that fits is well-formed. -/
theorem nameFrame_wellFormed (way : Way) {p : List Byte} (h : p.length ≤ 65535) :
    (nameFrame cfg way c p).wellFormed cfg = true := by
  unfold nameFrame
  split_ifs <;> simp_all [Instr.wellFormed, payloadFits, maxPayload, Config.commands]

/-- The encoder writes the request that a frame instruction was named from. -/
theorem encodeRequest_nameFrame (way : Way) :
    encodeRequest cfg (nameFrame cfg way c p) = frameRequest cfg way c p := by
  unfold nameFrame
  split_ifs <;> simp_all [encodeRequest]

end Sys2Proof
end

