-- ==== Sys2Proof/Laws/Memory.lean ====
section
/-! SUPPORT. `rx_pay` as a memory: a read after a write, a write elsewhere, and the canonical form
that every memory operation keeps. -/

namespace Sys2Proof.Machine

@[simp] theorem payGet?_nil (k : Nat) : payGet? [] k = none := rfl

@[simp] theorem payGet?_payWrite_same (m : Memory) (k : Nat) (v : Byte) :
    payGet? (payWrite m k v) k = some v := by
  induction m with
  | nil => simp [payWrite, payGet?]
  | cons c m ih =>
    obtain ⟨a, u⟩ := c
    simp only [payWrite]
    split_ifs with h₁ h₂
    · simp [payGet?]
    · simp [payGet?]
    · simp [payGet?, Ne.symm h₂, ih]

theorem payGet?_payWrite_ne (m : Memory) {k j : Nat} (v : Byte) (h : j ≠ k) :
    payGet? (payWrite m k v) j = payGet? m j := by
  induction m with
  | nil => simp [payWrite, payGet?, Ne.symm h]
  | cons c m ih =>
    obtain ⟨a, u⟩ := c
    simp only [payWrite]
    split_ifs with h₁ h₂
    · simp [payGet?, Ne.symm h]
    · subst h₂; simp [payGet?, Ne.symm h]
    · simp [payGet?, ih]

/-- `PayRead` of the cell just written gives the byte written (R41, R42). -/
@[simp] theorem payRead_payWrite_same (m : Memory) (k : Nat) (v : Byte) :
    payRead (payWrite m k v) k = v := by
  simp [payRead]

/-- A write leaves every other cell alone (R41). -/
theorem payRead_payWrite_ne (m : Memory) {k j : Nat} (v : Byte) (h : j ≠ k) :
    payRead (payWrite m k v) j = payRead m j := by
  simp [payRead, payGet?_payWrite_ne m v h]

theorem Memory.wf_nil : Memory.wf [] := by simp [Memory.wf]

theorem payWrite_mem (m : Memory) (k : Nat) (v : Byte) {c : Host.Cell}
    (h : c ∈ payWrite m k v) : c = (k, v) ∨ c ∈ m := by
  induction m with
  | nil => simpa [payWrite] using h
  | cons d m ih =>
    obtain ⟨a, u⟩ := d
    simp only [payWrite] at h
    split_ifs at h
    · simpa using h
    · rcases List.mem_cons.1 h with h | h
      · exact .inl h
      · exact .inr (List.mem_cons_of_mem _ h)
    · rcases List.mem_cons.1 h with h | h
      · exact .inr (h ▸ List.mem_cons_self)
      · exact (ih h).imp_right (List.mem_cons_of_mem _)

/-- The one memory operation that writes keeps the canonical form. -/
theorem payWrite_wf (m : Memory) {k : Nat} (v : Byte) (hk : k < payCells) (h : Memory.wf m) :
    Memory.wf (payWrite m k v) := by
  induction m with
  | nil => simpa [payWrite, Memory.wf] using hk
  | cons d m ih =>
    obtain ⟨a, u⟩ := d
    obtain ⟨hs, hb⟩ := h
    have hs' := List.pairwise_cons.1 hs
    simp only [payWrite]
    split_ifs with h₁ h₂
    · refine ⟨List.pairwise_cons.2 ⟨fun x hx => ?_, hs⟩, fun c hc => ?_⟩
      · rcases List.mem_cons.1 hx with rfl | hx
        · exact h₁
        · exact lt_trans h₁ (hs'.1 x hx)
      · rcases List.mem_cons.1 hc with rfl | hc
        · exact hk
        · exact hb c hc
    · subst h₂
      exact ⟨hs, fun c hc => (List.mem_cons.1 hc).elim (fun e => e ▸ hk)
        fun e => hb c (List.mem_cons_of_mem _ e)⟩
    · have hm : Memory.wf (payWrite m k v) :=
        ih ⟨hs'.2, fun c hc => hb c (List.mem_cons_of_mem _ hc)⟩
      refine ⟨List.pairwise_cons.2 ⟨fun x hx => ?_, hm.1⟩, fun c hc => ?_⟩
      · obtain ⟨c, hc, rfl⟩ := List.mem_map.1 hx
        rcases payWrite_mem m k v hc with rfl | hc
        · show a < k
          omega
        · exact hs'.1 _ (List.mem_map_of_mem hc)
      · rcases List.mem_cons.1 hc with rfl | hc
        · exact hb _ List.mem_cons_self
        · exact hm.2 c hc

/-- Equal memories are equal data: two memories in canonical form that read alike are one list. -/
theorem Memory.wf_ext : ∀ {m n : Memory}, Memory.wf m → Memory.wf n →
    (∀ k, payGet? m k = payGet? n k) → m = n
  | [], [], _, _, _ => rfl
  | [], (b, v) :: n, _, _, h => by simpa [payGet?] using h b
  | (a, u) :: m, [], _, _, h => by simpa [payGet?] using h a
  | (a, u) :: m, (b, v) :: n, hm, hn, h => by
    have hm' := List.pairwise_cons.1 hm.1
    have hn' := List.pairwise_cons.1 hn.1
    have low : ∀ (l : Memory) (x : Nat), (∀ y ∈ l.map Prod.fst, x < y) → payGet? l x = none := by
      intro l x hl
      induction l with
      | nil => rfl
      | cons c l ih =>
        obtain ⟨y, w⟩ := c
        have hy : x < y := hl y (by simp)
        have hne : ¬ y = x := by omega
        rw [payGet?, if_neg hne]
        exact ih fun z hz => hl z (List.mem_cons_of_mem _ hz)
    have hab : a = b := by
      rcases lt_trichotomy a b with hl | he | hl
      · have := h a
        rw [low ((b, v) :: n) a] at this
        · simp [payGet?] at this
        · intro y hy
          rcases List.mem_cons.1 hy with rfl | hy
          · exact hl
          · exact lt_trans hl (hn'.1 y hy)
      · exact he
      · have := h b
        rw [low ((a, u) :: m) b] at this
        · simp [payGet?] at this
        · intro y hy
          rcases List.mem_cons.1 hy with rfl | hy
          · exact hl
          · exact lt_trans hl (hm'.1 y hy)
    subst hab
    have huv : u = v := by simpa [payGet?] using h a
    subst huv
    congr 1
    refine Memory.wf_ext ⟨hm'.2, fun c hc => hm.2 c (List.mem_cons_of_mem _ hc)⟩
      ⟨hn'.2, fun c hc => hn.2 c (List.mem_cons_of_mem _ hc)⟩ fun k => ?_
    by_cases hk : a = k
    · subst hk
      rw [low m a hm'.1, low n a hn'.1]
    · simpa [payGet?, hk] using h k

end Sys2Proof.Machine
end

