-- ==== Sys2Proof/Laws/State.lean ====
section
/-! SUPPORT. What each update of the state leaves in each field: true by definition, so that no
later proof unfolds a record update. -/

namespace Sys2Proof.Machine

variable (s : State) (r : Word) (f : FaultFlag) (q : Request)

@[simp] theorem answer_cfg : (answer r s).cfg = s.cfg := rfl
@[simp] theorem answer_tx : (answer r s).tx = s.tx := rfl
@[simp] theorem answer_rx : (answer r s).rx = s.rx := rfl
@[simp] theorem answer_pay : (answer r s).pay = s.pay := rfl
@[simp] theorem answer_faults : (answer r s).faults = s.faults := rfl
@[simp] theorem answer_port : (answer r s).port = s.port := rfl
@[simp] theorem answer_answers : (answer r s).answers = [.ok r] := rfl

@[simp] theorem raise_cfg : (raise f s).cfg = s.cfg := rfl
@[simp] theorem raise_tx : (raise f s).tx = s.tx := rfl
@[simp] theorem raise_rx : (raise f s).rx = s.rx := rfl
@[simp] theorem raise_pay : (raise f s).pay = s.pay := rfl
@[simp] theorem raise_faults : (raise f s).faults = s.faults ||| faultBit f := rfl
@[simp] theorem raise_port : (raise f s).port = s.port := rfl
@[simp] theorem raise_answers : (raise f s).answers = [.fault f] := rfl

@[simp] theorem placeRequest_cfg : (placeRequest q s).cfg = s.cfg := rfl
@[simp] theorem placeRequest_tx : (placeRequest q s).tx = s.tx := rfl
@[simp] theorem placeRequest_rx : (placeRequest q s).rx = s.rx := rfl
@[simp] theorem placeRequest_pay : (placeRequest q s).pay = s.pay := rfl
@[simp] theorem placeRequest_faults : (placeRequest q s).faults = s.faults := rfl
@[simp] theorem placeRequest_port : (placeRequest q s).port = q :: s.port := rfl
@[simp] theorem placeRequest_answers : (placeRequest q s).answers = s.answers := rfl

/-- What `placeRequest` puts first, `fetch` takes. -/
@[simp] theorem fetch_placeRequest : fetch (placeRequest q s) = some (q, s) := rfl

end Sys2Proof.Machine
end

