-- ==== Sys2Proof/Laws/Ops.lean ====
section
/-! SUPPORT. One lemma per shared operation, saying once everything it can do: the cases of each
host operation, and what a sequence of operations keeps. -/

namespace Sys2Proof.Machine

/-! ## The host operations -/

theorem txBegin_cases (c : Byte) (l : Half) (s : State) :
    (s.tx.active = true ∧ txBegin c l s = raise .txBusy s) ∨
    (s.tx.active = false ∧ txBegin c l s =
      answer 0 { s with tx := { active := true, idx := 0, cmd := c, len := l, sum := 0 } }) := by
  cases h : s.tx.active <;> simp [txBegin, h]

theorem txStep_cases (d : Byte) (s : State) :
    (s.tx.active = false ∧ txStep d s = raise .txIdle s) ∨
    (s.tx.active = true ∧ txStep d s =
      answer (txstepWord (txOut s.cfg s.tx d) (txLast s.tx))
        { s with tx := txAdvance s.tx (txOut s.cfg s.tx d) }) := by
  cases h : s.tx.active <;> simp [txStep, h]

theorem rxHdr_cases (s : State) :
    (verdict s ≠ none ∧ rxHdr s = raise .rxInvalid s) ∨
    (verdict s = none ∧ rxHdr s = answer (rxhdrWord s.rx) s) := by
  by_cases h : verdict s = none <;> simp [rxHdr, h]

theorem rxGet_cases (k : Half) (s : State) :
    ((verdict s ≠ none ∨ s.rx.len.toNat ≤ k.toNat) ∧ rxGet k s = raise .rxInvalid s) ∨
    (verdict s = none ∧ k.toNat < s.rx.len.toNat ∧
      rxGet k s = answer (byteWord (payRead s.pay k.toNat)) s) := by
  by_cases h : verdict s = none
  · by_cases hk : k.toNat < s.rx.len.toNat
    · exact .inr ⟨h, hk, by simp [rxGet, h, hk]⟩
    · exact .inl ⟨.inr (by omega), by simp [rxGet, h, hk]⟩
  · exact .inl ⟨.inl h, by simp [rxGet, h]⟩

/-- The payload cell of a push lies in the space (R41). -/
theorem rxPayIndex_lt {rx : Rx} {k : Nat} (h : rxPayIndex rx = some k) : k < payCells := by
  have := rx.len.isLt
  simp only [rxPayIndex] at h
  split_ifs at h with hc
  · simp only [Option.some.injEq] at h
    simp only [payCells]
    omega

/-- A push keeps the canonical form of `rx_pay`. -/
theorem rxStore_wf (rx : Rx) (b : Byte) {m : Memory} (h : Memory.wf m) :
    Memory.wf (rxStore rx b m) := by
  unfold rxStore
  split
  · next k hk => exact payWrite_wf m b (rxPayIndex_lt hk) h
  · exact h

/-! ## Sequences -/

@[simp] theorem performAll_nil (s : State) : performAll [] s = { s with answers := [] } := rfl

theorem performAll_cons (op : State → State) (ops : List (State → State)) (s : State) :
    performAll (op :: ops) s = { performAll ops (op s) with
      answers := (op s).answers ++ (performAll ops (op s)).answers } := rfl

/-- What holds whatever the answers are, and is kept by each operation, is kept by all of them. -/
theorem performAll_keeps {P : State → Prop} (hP : ∀ s a, P s → P { s with answers := a }) :
    ∀ (ops : List (State → State)), (∀ op ∈ ops, ∀ s, P s → P (op s)) →
      ∀ s, P s → P (performAll ops s)
  | [], _, s, h => hP s _ h
  | op :: ops, hops, s, h =>
    hP _ _ (performAll_keeps hP ops (fun o ho => hops o (List.mem_cons_of_mem _ ho)) (op s)
      (hops op List.mem_cons_self s h))

/-- No operation reads the answers of the one before: those a sequence starts from do not matter. -/
theorem performAll_answers_irrelevant {ops : List (State → State)}
    (h : ∀ op ∈ ops, ∀ s a, op { s with answers := a } = op s) (s : State) (a : List Answer) :
    performAll ops { s with answers := a } = performAll ops s := by
  cases ops with
  | nil => rfl
  | cons op ops => simp only [performAll_cons, h op List.mem_cons_self]

/-- A sequence of meanings is the sequence of instructions they belong to, issued in order. -/
theorem performAll_issueAll {is : List Instr} {ops : List (State → State)}
    (h : List.Forall₂ (fun i op => ∀ s, exec i s = .next (op s)) is ops) :
    ∀ s, ∃ u as, issueAll is s = some (u, as) ∧ performAll ops s = { u with answers := as } := by
  induction h with
  | nil => exact fun s => ⟨s, [], rfl, rfl⟩
  | @cons i op is ops hd _ ih =>
    intro s
    obtain ⟨u, as, h₁, h₂⟩ := ih (op s)
    exact ⟨u, (op s).answers ++ as, by simp [issueAll, hd, h₁], by rw [performAll_cons, h₂]⟩

/-! ## Host operations, issued one by one -/

/-- A host operation always completes, with one answer (R8, R48). -/
theorem exec_host_next {i : Instr} (hi : i.isHostOp = true) (s : State) :
    ∃ t a, exec i s = .next t ∧ t.answers = [a] := by
  cases i <;> simp [Instr.isHostOp] at hi
  case txbegin c l =>
    rcases txBegin_cases c l s with ⟨_, e⟩ | ⟨_, e⟩ <;> exact ⟨_, _, rfl, by rw [e]; rfl⟩
  case txstep d =>
    rcases txStep_cases d s with ⟨_, e⟩ | ⟨_, e⟩ <;> exact ⟨_, _, rfl, by rw [e]; rfl⟩
  case rxhdr => rcases rxHdr_cases s with ⟨_, e⟩ | ⟨_, e⟩ <;> exact ⟨_, _, rfl, by rw [e]; rfl⟩
  case rxget k =>
    rcases rxGet_cases k s with ⟨_, e⟩ | ⟨_, _, e⟩ <;> exact ⟨_, _, rfl, by rw [e]; rfl⟩
  all_goals exact ⟨_, _, rfl, rfl⟩

/-- An operation that writes no RX register keeps `rx_pay` whole too, one that drives no transmit
frame and is not RESET keeps the TX registers, and all keep the configuration and the port. -/
theorem exec_host_units {i : Instr} (hi : i.isHostOp = true) {s t : State}
    (h : exec i s = .next t) :
    t.cfg = s.cfg ∧ t.port = s.port ∧ (i.drivesTx = false → i ≠ .reset → t.tx = s.tx) ∧
      (i.writesRx = false → t.rx = s.rx ∧ t.pay = s.pay) := by
  cases i <;> simp [Instr.isHostOp] at hi <;> cases h
  case txbegin c l =>
    rcases txBegin_cases c l s with ⟨_, e⟩ | ⟨_, e⟩ <;> simp [e, Instr.drivesTx]
  case txstep d => rcases txStep_cases d s with ⟨_, e⟩ | ⟨_, e⟩ <;> simp [e, Instr.drivesTx]
  case rxhdr => rcases rxHdr_cases s with ⟨_, e⟩ | ⟨_, e⟩ <;> simp [e]
  case rxget k => rcases rxGet_cases k s with ⟨_, e⟩ | ⟨_, _, e⟩ <;> simp [e]
  all_goals simp [resetBlock, txStat, rxPush, rxClear, rxStat, rssiRead, readFaults, illegalOp,
    Instr.writesRx]

theorem issueAll_cons {i : Instr} {is : List Instr} {s u t : State} {as : List Answer}
    (h : exec i s = .next u) (hs : issueAll is u = some (t, as)) :
    issueAll (i :: is) s = some (t, u.answers ++ as) := by
  simp [issueAll, h, hs]

/-- Host operations never stop: a sequence of them is performed whole, one answer each (R50). -/
theorem issueAll_host : ∀ (ops : List Instr) (s : State), (∀ i ∈ ops, i.isHostOp = true) →
    ∃ t as, issueAll ops s = some (t, as) ∧ as.length = ops.length
  | [], s, _ => ⟨s, [], rfl, rfl⟩
  | i :: is, s, h => by
    obtain ⟨t, a, ht, ha⟩ := exec_host_next (h i List.mem_cons_self) s
    obtain ⟨u, as, hu, hl⟩ := issueAll_host is t fun j hj => h j (List.mem_cons_of_mem _ hj)
    exact ⟨u, _, issueAll_cons ht hu, by simp [ha, hl]⟩

/-! ## The port and the step -/

theorem step_idle {s : State} (h : s.port = []) : step s = .next s := by
  simp [step, fetch, h]

theorem step_request {s : State} {r : Request} {rest : List Request} (h : s.port = r :: rest) :
    step s = match decodeRequest s.cfg r with
      | .ok i => exec i { s with port := rest }
      | .error e => performRejected e { s with port := rest } := by
  cases hd : decodeRequest s.cfg r <;> simp [step, fetch, h, hd]

/-- Everything a step can do that answers a next state. -/
theorem step_cases {s t : State} (h : step s = .next t) :
    (s.port = [] ∧ t = s) ∨
    (∃ r rest, s.port = r :: rest ∧
      ((∃ i, decodeRequest s.cfg r = .ok i ∧ exec i { s with port := rest } = .next t) ∨
       ∃ run e, decodeRequest s.cfg r = .error (.notAFrame run e) ∧
         t = decodeRun run { s with port := rest })) := by
  rcases hp : s.port with _ | ⟨r, rest⟩
  · rw [step_idle hp] at h
    exact .inl ⟨rfl, by injection h with h; exact h.symm⟩
  · rw [step_request hp] at h
    refine .inr ⟨r, rest, rfl, ?_⟩
    rcases hd : decodeRequest s.cfg r with e | i
    · rw [hd] at h
      cases e with
      | notAFrame run e =>
        simp only [performRejected, Host.Outcome.next.injEq] at h
        exact .inr ⟨run, e, rfl, h.symm⟩
      | payloadTooLong => simp [performRejected] at h
    · rw [hd] at h
      exact .inl ⟨i, rfl, h⟩

/-- Everything a frame instruction can do: the expansion of R81 on its side, or the refusal of a
payload that the length field cannot declare. -/
theorem frameOp_cases (c : Byte) (way : Way) (p : List Byte) (s : State) :
    (maxPayload < p.length ∧ frameOp c way p s = .refused .payloadTooLong) ∨
    (p.length ≤ maxPayload ∧ way = .sent ∧ frameOp c way p s = .next (encodeRun c p s)) ∨
    (p.length ≤ maxPayload ∧ ∃ t, way = .received t ∧
      frameOp c way p s = .next (decodeRun (frameBytes s.cfg t c p) s)) := by
  by_cases h : p.length ≤ maxPayload
  · cases way with
    | sent => exact .inr (.inl ⟨h, rfl, by simp [frameOp, payloadFits, h]⟩)
    | received t => exact .inr (.inr ⟨h, t, rfl, by simp [frameOp, payloadFits, h]⟩)
  · exact .inl ⟨by omega, by simp [frameOp, payloadFits, h]⟩

/-- A frame instruction is `frameOp` of the frame it stands for. -/
theorem exec_frame {i : Instr} {s : State} {way : Way} {c : Byte} {p : List Byte}
    (h : i.frame? s.cfg = some (way, c, p)) : exec i s = frameOp c way p s := by
  cases i <;> simp only [Instr.frame?, Option.some.injEq, Prod.mk.injEq, reduceCtorEq] at h <;>
    obtain ⟨rfl, rfl, rfl⟩ := h <;> rfl

/-- Every instruction is a host operation or a frame. -/
theorem isHostOp_or_frame (i : Instr) (cfg : Config) :
    i.isHostOp = true ∨ ∃ way c p, i.frame? cfg = some (way, c, p) := by
  cases i <;> first | exact .inl rfl | exact .inr ⟨_, _, _, rfl⟩

end Sys2Proof.Machine
end

