-- ==== Sys2Proof/Laws/PerInstr.lean ====
section
/-! SUPPORT. Facts about every instruction as syntax, one lemma per constructor: the encoder puts
each instruction in its own row of spec/opcode_table.json. -/

namespace Sys2Proof.Laws.EncodesItsRow

/-- The mask and match of a host operation's row; none for a frame row. -/
def row : Instr → Option (Word × Word)
  | .reset => some (0xF0000000, 0x00000000)
  | .txbegin _ _ => some (0xF0000000, 0x10000000)
  | .txstep _ => some (0xF0000000, 0x20000000)
  | .txstat => some (0xF0000000, 0x30000000)
  | .rxpush _ => some (0xF0000000, 0x40000000)
  | .rxclr => some (0xF0000000, 0x50000000)
  | .rxstat => some (0xF0000000, 0x60000000)
  | .rxhdr => some (0xF0000000, 0x70000000)
  | .rxget _ => some (0xF0000000, 0x80000000)
  | .rssi _ _ => some (0xF0000000, 0x90000000)
  | .faults => some (0xF0000000, 0xA0000000)
  | .reservedB => some (0xF0000000, 0xB0000000)
  | .reservedC => some (0xF0000000, 0xC0000000)
  | .reservedD => some (0xF0000000, 0xD0000000)
  | .reservedE => some (0xF0000000, 0xE0000000)
  | .reservedF => some (0xF0000000, 0xF0000000)
  | .rssiCurve3 _ => some (0xF0000300, 0x90000300)
  | .frameInventory _ _ | .frameMultiPoll _ _ | .frameStopMulti _ _ | .frameSelect _ _
  | .frameRead _ _ | .frameWrite _ _ | .frameError _ _ | .frameOther _ _ _ => none

/-- The encoder's word lies in the instruction's row; a frame is carried by its own request. -/
def Statement (i : Instr) : Prop :=
  ∀ cfg, match row i with
    | some (mask, pattern) => ∃ w, encodeRequest cfg i = .word w ∧ w &&& mask = pattern
    | none => ∃ way c p, i.frame? cfg = some (way, c, p) ∧
        encodeRequest cfg i = frameRequest cfg way c p

/-- Only the operation code is left of a command word under the mask 0xF0000000. -/
theorem mask_op (w : Word) : w &&& (0xF0000000 : Word) = (opField w).setWidth 32 <<< 28 := by
  apply BitVec.eq_of_getLsbD_eq
  intro i hi
  interval_cases i <;> simp [opField]

/-- And the curve select beside it under the mask 0xF0000300. -/
theorem mask_curve (w : Word) :
    w &&& (0xF0000300 : Word) = (opField w).setWidth 32 <<< 28 ||| (curveField w).setWidth 32 <<< 8 := by
  apply BitVec.eq_of_getLsbD_eq
  intro i hi
  interval_cases i <;> simp [opField, curveField]

theorem hostWord_op (op : BitVec 4) (cmd : Byte) (half : Half) :
    hostWord op cmd half &&& (0xF0000000 : Word) = op.setWidth 32 <<< 28 := by
  rw [mask_op, opField_hostWord]

/-- The same for the row of the reserved curve select. -/
theorem hostWord_curve3 (raw : Byte) :
    hostWord 0x9 0 (rssiOperand 3 raw) &&& 0xF0000300 = 0x90000300 := by
  have hc : curveField (hostWord 0x9 0 (rssiOperand 3 raw)) = 3 := by
    apply BitVec.eq_of_toNat_eq
    have := raw.isLt
    rw [curveField_hostWord, rssiOperand_toNat]
    simp
    omega
  rw [mask_curve, opField_hostWord, hc]
  rfl

theorem reset : Statement .reset := fun _ => ⟨_, rfl, hostWord_op ..⟩
theorem txbegin (c : Byte) (l : Half) : Statement (.txbegin c l) := fun _ => ⟨_, rfl, hostWord_op ..⟩
theorem txstep (d : Byte) : Statement (.txstep d) := fun _ => ⟨_, rfl, hostWord_op ..⟩
theorem txstat : Statement .txstat := fun _ => ⟨_, rfl, hostWord_op ..⟩
theorem rxpush (b : Byte) : Statement (.rxpush b) := fun _ => ⟨_, rfl, hostWord_op ..⟩
theorem rxclr : Statement .rxclr := fun _ => ⟨_, rfl, hostWord_op ..⟩
theorem rxstat : Statement .rxstat := fun _ => ⟨_, rfl, hostWord_op ..⟩
theorem rxhdr : Statement .rxhdr := fun _ => ⟨_, rfl, hostWord_op ..⟩
theorem rxget (k : Half) : Statement (.rxget k) := fun _ => ⟨_, rfl, hostWord_op ..⟩
theorem rssi (c : Curve) (r : Byte) : Statement (.rssi c r) := fun _ => ⟨_, rfl, hostWord_op ..⟩
theorem faults : Statement .faults := fun _ => ⟨_, rfl, hostWord_op ..⟩
theorem reservedB : Statement .reservedB := fun _ => ⟨_, rfl, hostWord_op ..⟩
theorem reservedC : Statement .reservedC := fun _ => ⟨_, rfl, hostWord_op ..⟩
theorem reservedD : Statement .reservedD := fun _ => ⟨_, rfl, hostWord_op ..⟩
theorem reservedE : Statement .reservedE := fun _ => ⟨_, rfl, hostWord_op ..⟩
theorem reservedF : Statement .reservedF := fun _ => ⟨_, rfl, hostWord_op ..⟩
theorem rssiCurve3 (r : Byte) : Statement (.rssiCurve3 r) := fun _ => ⟨_, rfl, hostWord_curve3 r⟩
theorem frameInventory (w : Way) (p : List Byte) : Statement (.frameInventory w p) :=
  fun _ => ⟨_, _, _, rfl, rfl⟩
theorem frameMultiPoll (w : Way) (p : List Byte) : Statement (.frameMultiPoll w p) :=
  fun _ => ⟨_, _, _, rfl, rfl⟩
theorem frameStopMulti (w : Way) (p : List Byte) : Statement (.frameStopMulti w p) :=
  fun _ => ⟨_, _, _, rfl, rfl⟩
theorem frameSelect (w : Way) (p : List Byte) : Statement (.frameSelect w p) :=
  fun _ => ⟨_, _, _, rfl, rfl⟩
theorem frameRead (w : Way) (p : List Byte) : Statement (.frameRead w p) :=
  fun _ => ⟨_, _, _, rfl, rfl⟩
theorem frameWrite (w : Way) (p : List Byte) : Statement (.frameWrite w p) :=
  fun _ => ⟨_, _, _, rfl, rfl⟩
theorem frameError (w : Way) (p : List Byte) : Statement (.frameError w p) :=
  fun _ => ⟨_, _, _, rfl, rfl⟩
theorem frameOther (w : Way) (c : Byte) (p : List Byte) : Statement (.frameOther w c p) :=
  fun _ => ⟨_, _, _, rfl, rfl⟩

end Sys2Proof.Laws.EncodesItsRow
end

