-- ==== Sys2Proof/Laws/Rx.lean ====
section
/-! SUPPORT. What a push leaves in each RX register (R121, R18), one lemma per register. -/

namespace Sys2Proof.Machine

variable (cfg : Config) (rx : Rx) (b : Byte)

theorem rxNext_count : (rxNext cfg rx b).count.toNat = min (rx.count.toNat + 1) 131071 := by
  simp [rxNext, rxSat]

theorem rxNext_last : (rxNext cfg rx b).last = b := rfl

theorem rxNext_hdrOk : (rxNext cfg rx b).hdrOk =
    if rx.count.toNat = 0 then decide (b = cfg.header) else rx.hdrOk := by
  simp only [rxNext, rxField]
  split_ifs <;> rfl

theorem rxNext_type : (rxNext cfg rx b).type = if rx.count.toNat = 1 then b else rx.type := by
  simp only [rxNext, rxField]
  split_ifs <;> first | rfl | (exfalso; omega)

theorem rxNext_cmd : (rxNext cfg rx b).cmd = if rx.count.toNat = 2 then b else rx.cmd := by
  simp only [rxNext, rxField]
  split_ifs <;> first | rfl | (exfalso; omega)

theorem rxNext_len : (rxNext cfg rx b).len =
    if rx.count.toNat = 3 then b ++ lo8 rx.len
    else if rx.count.toNat = 4 then hi8 rx.len ++ b else rx.len := by
  simp only [rxNext, rxField]
  split_ifs <;> first | rfl | (exfalso; omega)

theorem rxNext_sum : (rxNext cfg rx b).sum =
    if rx.count.toNat = 0 then rx.sum
    else if rx.count.toNat = 1 then b
    else if rx.count.toNat < 5 ∨ rx.count.toNat < 5 + rx.len.toNat then rx.sum + b
    else rx.sum := by
  simp only [rxNext, rxField]
  split_ifs <;> first | rfl | (exfalso; omega)

theorem rxNext_ck : (rxNext cfg rx b).ck =
    if 5 ≤ rx.count.toNat ∧ rx.count.toNat = 5 + rx.len.toNat then b else rx.ck := by
  simp only [rxNext, rxField]
  split_ifs <;> first | rfl | (exfalso; omega)

/-- What a push leaves in `rx_pay` (R41, R121). -/
theorem rxStore_get (m : Memory) (k : Nat) : payGet? (rxStore rx b m) k =
    if 5 ≤ rx.count.toNat ∧ rx.count.toNat < 5 + rx.len.toNat ∧ k = rx.count.toNat - 5 then some b
    else payGet? m k := by
  simp only [rxStore, rxPayIndex]
  by_cases h : 5 ≤ rx.count.toNat ∧ rx.count.toNat < 5 + rx.len.toNat
  · rw [if_pos h]
    by_cases hk : k = rx.count.toNat - 5
    · rw [if_pos ⟨h.1, h.2, hk⟩, hk, payGet?_payWrite_same]
    · rw [if_neg (fun g => hk g.2.2), payGet?_payWrite_ne _ _ hk]
  · rw [if_neg h, if_neg (fun g => h ⟨g.1, g.2.1⟩)]

end Sys2Proof.Machine
end

