-- ==== Sys2Proof/Tests/Slice0.lean ====
section
/-! SUPPORT. Tests: expected values are the test vectors of 95_test_vectors.md (named by their ids)
or sums done by hand from R60 to R62; then, for every obligation with hypotheses, a witness that
meets them. -/

namespace Sys2Proof.Tests

open Sys2Proof.Machine

/-! ## Configurations and small states -/

/-- `CFG_REF` with the reference tables of R155. -/
def cfgRef : Config where
  header := 0xBB
  typeByte := 0x00
  trailer := 0x7E
  cmdInventory := 0x22
  cmdMultiPoll := 0x27
  cmdStopMulti := 0x28
  cmdSelect := 0x0C
  cmdRead := 0x39
  cmdWrite := 0x49
  cmdError := 0xFF
  rssiMin := 0x9C
  rssiMax := 0xFB
  linear := Config.tableOf Config.refLinear
  curved := Config.tableOf Config.refCurved
  custom := Config.tableOf Config.refLinear

/-- `CFG_ALT`, with the custom table `raw - 128` of part 5's clamp test. -/
def cfgAlt : Config :=
  { cfgRef with
    header := 0xA5, typeByte := 0x01, trailer := 0x5A
    custom := Config.tableOf fun raw => (raw : Int) - 128 }

/-- `CFG_SAME`: header equal to trailer. -/
def cfgSame : Config := { cfgRef with header := 0x7E }

/-- Right after power-up, built with `CFG_REF`. -/
def base : State := { State.reset with cfg := cfgRef }

/-- Right after power-up, built with `CFG_ALT`. -/
def baseAlt : State := { State.reset with cfg := cfgAlt }

/-- A frame of command 0x27 in progress, at this index, with this length and sum. -/
def inTx (idx : Count) (len : Half) (sum : Byte) : State :=
  { base with tx := { active := true, idx := idx, cmd := 0x27, len := len, sum := sum } }

/-- In the run of E, before its checksum and trailer: this count, header seen or not, length, sum,
checksum byte and last byte. -/
def inRx (count : Count) (hdrOk : Bool) (len : Half) (sum ck last : Byte) : State :=
  { base with
    rx := {
      count := count, hdrOk := hdrOk, type := 0x01, cmd := 0xFF, len := len, sum := sum, ck := ck
      last := last }
    pay := [(0, 0x15)] }

/-- E received whole (the Ok row of the RX trace). -/
def gotE : State := inRx 8 true 1 0x16 0x16 0x7E

/-- The valid frame E of part 3. -/
def frameE : List Byte := [0xBB, 0x01, 0xFF, 0x00, 0x01, 0x15, 0x16, 0x7E]

/-- V1. -/
def frameV1 : List Byte := [0xBB, 0x00, 0x22, 0x00, 0x00, 0x22, 0x7E]

/-- The answers of an outcome. -/
def answersOf : Host.Outcome State Fault Refusal → List Answer
  | .next t => t.answers
  | .fault _ => []
  | .refused _ => []

/-- A field of the next state. -/
def after {α : Type} (f : State → α) : Host.Outcome State Fault Refusal → Option α
  | .next t => some (f t)
  | .fault _ => none
  | .refused _ => none

/-- The verdict of a run, with no frame in it. -/
def errorOf (cfg : Config) (b : List Byte) : Option DecodeError := runVerdict cfg b

/-- The reference configuration is one that R4 allows. -/
theorem test_cfgRef_valid : cfgRef.Valid := by
  have lin : ∀ n : Nat, n < 256 → (BitVec.ofInt 8 (Config.refLinear n)).toInt = Config.refLinear n := by
    intro n hn
    rw [BitVec.toInt_ofInt]
    unfold Config.refLinear
    exact Int.bmod_eq_of_le (by omega) (by omega)
  have cur : ∀ n : Nat, n < 256 → (BitVec.ofInt 8 (Config.refCurved n)).toInt = Config.refCurved n := by
    intro n hn
    rw [BitVec.toInt_ofInt]
    unfold Config.refCurved
    split_ifs <;> exact Int.bmod_eq_of_le (by omega) (by omega)
  refine ⟨by decide, by decide, fun c r hr => ?_⟩
  have hn : (r + 1).toNat = r.toNat + 1 := by
    rw [BitVec.toNat_add]
    simp
    omega
  cases c <;>
    simp only [Config.entry, Config.table, cfgRef, Config.tableOf, Vector.getElem_ofFn, hn]
  · rw [lin _ (by omega), lin _ (by omega)]
    unfold Config.refLinear
    omega
  · rw [cur _ (by omega), cur _ (by omega)]
    unfold Config.refCurved
    split_ifs <;> omega
  · rw [lin _ (by omega), lin _ (by omega)]
    unfold Config.refLinear
    omega

/-! ## WellFormed refuses ill-formed terms -/

theorem test_illFormed_longPayload :
    ∀ i ∈ [Instr.frameInventory .sent (List.replicate 65536 0),
      .frameMultiPoll .sent (List.replicate 65536 0), .frameStopMulti .sent (List.replicate 65536 0),
      .frameSelect .sent (List.replicate 65536 0), .frameRead .sent (List.replicate 65536 0),
      .frameWrite (.received 0) (List.replicate 65536 0),
      .frameError (.received 0) (List.replicate 65536 0),
      .frameOther .sent 0x55 (List.replicate 65536 0)],
      i.wellFormed cfgRef = false := by
  intro i hi
  simp only [List.mem_cons, List.not_mem_nil, or_false] at hi
  rcases hi with rfl | rfl | rfl | rfl | rfl | rfl | rfl | rfl <;>
    simp only [Instr.wellFormed, payloadFits, maxPayload, List.length_replicate] <;> rfl

theorem test_illFormed_namedCommandAsOther :
    (Instr.frameOther .sent 0x49 []).wellFormed cfgRef = false := by decide

theorem test_wellFormed_longestPayload :
    (Instr.frameRead .sent (List.replicate 65535 0)).wellFormed cfgRef = true := by
  simp only [Instr.wellFormed, payloadFits, maxPayload, List.length_replicate]
  rfl

/-! ## Decoding: words of R75 and 95_test_vectors.md -/

theorem test_decode_tx : decodeWord 0x10270003 = .txbegin 0x27 3 ∧
    decodeWord 0x20000022 = .txstep 0x22 ∧ decodeWord 0x2FFFFF00 = .txstep 0x00 ∧
    decodeWord 0x30000000 = .txstat := by decide

theorem test_decode_rx : decodeWord 0x400000BB = .rxpush 0xBB ∧ decodeWord 0x50000000 = .rxclr ∧
    decodeWord 0x60000000 = .rxstat ∧ decodeWord 0x70000000 = .rxhdr ∧
    decodeWord 0x8000000F = .rxget 15 := by decide

theorem test_decode_rssi : decodeWord 0x900000A0 = .rssi .linear 0xA0 ∧
    decodeWord 0x900001A0 = .rssi .curved 0xA0 ∧ decodeWord 0x90000240 = .rssi .custom 0x40 ∧
    decodeWord 0x90000380 = .rssiCurve3 0x80 := by decide

theorem test_decode_system : decodeWord 0x00000000 = .reset ∧ decodeWord 0xA0000000 = .faults ∧
    decodeWord 0xB0000000 = .reservedB ∧ decodeWord 0xC0000000 = .reservedC ∧
    decodeWord 0xD0000000 = .reservedD ∧ decodeWord 0xE0000000 = .reservedE ∧
    decodeWord 0xF0000000 = .reservedF := by decide

/-- V1 to V4 and V7, and by hand SELECT (sum 0C), WRITE (49+01+AA = F4) and E. -/
theorem test_decode_frames :
    decodeRequest cfgRef (.decode frameV1) = .ok (.frameInventory (.received 0) []) ∧
    decodeRequest cfgRef (.decode [0xBB, 0x00, 0x27, 0x00, 0x03, 0x22, 0x27, 0x10, 0x83, 0x7E]) =
      .ok (.frameMultiPoll (.received 0) [0x22, 0x27, 0x10]) ∧
    decodeRequest cfgRef (.decode [0xBB, 0x00, 0x28, 0x00, 0x00, 0x28, 0x7E]) =
      .ok (.frameStopMulti (.received 0) []) ∧
    decodeRequest cfgRef (.decode [0xBB, 0x00, 0x0C, 0x00, 0x00, 0x0C, 0x7E]) =
      .ok (.frameSelect (.received 0) []) ∧
    decodeRequest cfgRef
      (.decode [0xBB, 0x00, 0x39, 0x00, 0x04, 0xBB, 0x7E, 0xBB, 0x7E, 0xAF, 0x7E]) =
      .ok (.frameRead (.received 0) [0xBB, 0x7E, 0xBB, 0x7E]) ∧
    decodeRequest cfgRef (.decode [0xBB, 0x00, 0x49, 0x00, 0x01, 0xAA, 0xF4, 0x7E]) =
      .ok (.frameWrite (.received 0) [0xAA]) ∧
    decodeRequest cfgRef (.decode frameE) = .ok (.frameError (.received 1) [0x15]) ∧
    decodeRequest cfgRef (.decode [0xBB, 0x00, 0x7E, 0x00, 0x00, 0x7E, 0x7E]) =
      .ok (.frameOther (.received 0) 0x7E []) := by
  refine ⟨rfl, rfl, rfl, rfl, rfl, rfl, rfl, rfl⟩

/-- V20, V21, V22, V23a, V41, V42: runs that are short, or of another header. -/
theorem test_decode_incomplete : errorOf cfgRef [] = some .incomplete ∧
    errorOf cfgRef [0xBB] = some .incomplete ∧ errorOf cfgRef [0x00] = some .badMarker ∧
    errorOf cfgRef [0x00, 0xBB, 0x00, 0xFF, 0xFF] = some .badMarker ∧
    errorOf cfgRef [0xBB, 0x01, 0xFF, 0x00, 0x01, 0x15, 0x00] = some .incomplete ∧
    errorOf cfgRef [0xBB, 0x00, 0x22, 0xFF, 0xFF, 0x20, 0x7E] = some .incomplete := by decide

/-- V26, V26a, V27, V28, V29, V38, V39, V43, V25a: the tests that come after, in their order. -/
theorem test_decode_order : errorOf cfgRef (frameE ++ [0x00]) = some .badMarker ∧
    errorOf cfgRef (frameE ++ [0x7E]) = some .lengthMismatch ∧
    errorOf cfgRef (frameE ++ frameV1) = some .lengthMismatch ∧
    errorOf cfgRef [0xBB, 0x01, 0xFF, 0x00, 0x01, 0x15, 0x16, 0x7F] = some .badMarker ∧
    errorOf cfgRef [0xBB, 0x01, 0xFF, 0x00, 0x01, 0x15, 0x17, 0x7E] = some .checksumMismatch ∧
    errorOf cfgRef [0xBB, 0x01, 0xFF, 0x00, 0x01, 0x15, 0x00, 0x00] = some .badMarker ∧
    errorOf cfgRef [0xBB, 0x01, 0xFF, 0x00, 0x01, 0x15, 0xE9, 0x7E, 0x7E] = some .lengthMismatch ∧
    errorOf cfgRef [0xBB, 0x00, 0x22, 0x00, 0x00, 0x7E, 0x7E] = some .checksumMismatch ∧
    errorOf cfgAlt frameE = some .badMarker := by decide

/-- V2, V6, V7a, V12: the type byte is summed, carries are dropped, markers are not escaped. -/
theorem test_encode : frameEncode cfgAlt 0x22 [] = [0xA5, 0x01, 0x22, 0x00, 0x00, 0x23, 0x5A] ∧
    frameEncode cfgRef 0xFF [0xFF, 0xFF, 0xFF] =
      [0xBB, 0x00, 0xFF, 0x00, 0x03, 0xFF, 0xFF, 0xFF, 0xFF, 0x7E] ∧
    frameEncode cfgAlt 0x39 [0xA5, 0x5A] = [0xA5, 0x01, 0x39, 0x00, 0x02, 0xA5, 0x5A, 0x3B, 0x5A] ∧
    frameEncode cfgSame 0x7E [0x7E] = [0x7E, 0x00, 0x7E, 0x00, 0x01, 0x7E, 0xFD, 0x7E] := by decide

/-! ## One step of each instruction -/

/-- F7: RESET clears `faults`. -/
theorem test_reset : after (fun t => (t.faults, t.tx.active, t.rx.count))
    (exec .reset { gotE with faults := 5, tx := (inTx 4 3 0).tx }) = some (0, false, 0) := by decide

/-- Start of the TX trace. -/
theorem test_txbegin : after (fun t => (t.answers, t.tx)) (exec (.txbegin 0x27 3) base) =
    some ([.ok 0], (inTx 0 3 0).tx) := by decide

/-- F2: a second TXBEGIN. -/
theorem test_txbegin_busy : after (fun t => (t.answers, t.faults, t.tx))
    (exec (.txbegin 0x22 0) (inTx 1 3 0)) =
    some ([.fault .txBusy], 0b00010, (inTx 1 3 0).tx) := by decide

/-- Step 8 of the TX trace. -/
theorem test_txstep_payload : after (fun t => (t.answers, t.tx)) (exec (.txstep 0x10) (inTx 7 3 0x73)) =
    some ([.ok 0x10], (inTx 8 3 0x83).tx) := by decide

/-- Step 10 of the TX trace: the trailer, r[8] set, idle after. -/
theorem test_txstep_trailer :
    after (fun t => (t.answers, t.tx.idx, t.tx.active, t.tx.sum)) (exec (.txstep 0xEE) (inTx 9 3 0x83)) =
    some ([.ok 0x17E], 0, false, 0x83) := by decide

/-- TXSTAT between steps 5 and 6, and between steps 8 and 9, of the TX trace. -/
theorem test_txstat : answersOf (exec .txstat (inTx 5 3 0x2A)) = [.ok 0x00060005] ∧
    answersOf (exec .txstat (inTx 8 3 0x83)) = [.ok 0x00020008] := by decide

/-- The sixth push of the RX trace stores its payload byte. -/
theorem test_rxpush_payload : after (fun t => (t.rx.count, t.rx.sum, t.rx.last, t.pay))
    (exec (.rxpush 0x15) { inRx 5 true 1 0x01 0x00 0x01 with pay := [] }) =
    some (6, 0x16, 0x15, [(0, 0x15)]) := by decide

/-- Saturation (R18): one more push stays at 131071, and the verdict follows the last byte. -/
theorem test_rxpush_saturates : after (fun t => (t.rx.count, verdict t))
    (exec (.rxpush 0x00) (inRx 131071 true 0 0x00 0x7E 0x7E)) =
    some (131071, some .badMarker) := by decide

/-- Step 19 of P2: RXCLR leaves `rx_pay`. -/
theorem test_rxclr : after (fun t => (t.answers, t.rx, t.pay)) (exec .rxclr gotE) =
    some ([.ok 0], Rx.cleared, [(0, 0x15)]) := by decide

/-- The last two rows of the RX trace. -/
theorem test_rxstat : answersOf (exec .rxstat gotE) = [.ok 0x00000041] ∧
    answersOf (exec .rxstat (inRx 9 true 1 0x16 0x16 0x7E)) = [.ok 0x0000004B] := by decide

/-- RXHDR at the Ok row, and at the last row, of the RX trace. -/
theorem test_rxhdr : answersOf (exec .rxhdr gotE) = [.ok 0x01FF0001] ∧
    after (fun t => (t.answers, t.faults)) (exec .rxhdr (inRx 9 true 1 0x16 0x16 0x7E)) =
      some ([.fault .rxInvalid], 0b01000) := by decide

/-- RXGET 0 and RXGET 1 at the Ok row of the RX trace. -/
theorem test_rxget : answersOf (exec (.rxget 0) gotE) = [.ok 0x15] ∧
    after (fun t => (t.answers, t.faults)) (exec (.rxget 1) gotE) =
      some ([.fault .rxInvalid], 0b01000) := by decide

/-- Q3, Q5, Q7 and Q10. -/
theorem test_rssi : answersOf (exec (.rssi .linear 0xA0) base) = [.ok 0x000000D7] ∧
    answersOf (exec (.rssi .curved 0x7F) base) = [.ok 0x000000E1] ∧
    answersOf (exec (.rssi .curved 0xA0) base) = [.ok 0x000000E8] ∧
    answersOf (exec (.rssi .custom 0x40) base) = [.ok 0x000000B3] := by
  simp only [exec, execRssi, rssiRead, answersOf, answer, estimate, Config.entry, Config.table, base,
    cfgRef, Config.tableOf, Vector.getElem_ofFn]
  decide

/-- The clamp test of part 5: -128 is raised to -100, -64 stays, 127 is lowered to -5. -/
theorem test_rssi_clamps : answersOf (exec (.rssi .custom 0x00) baseAlt) = [.ok 0x0000009C] ∧
    answersOf (exec (.rssi .custom 0x40) baseAlt) = [.ok 0x000000C0] ∧
    answersOf (exec (.rssi .custom 0xFF) baseAlt) = [.ok 0x000000FB] := by
  simp only [exec, execRssi, rssiRead, answersOf, answer, estimate, Config.entry, Config.table,
    baseAlt, cfgAlt, cfgRef, Config.tableOf, Vector.getElem_ofFn]
  decide

/-- F5. -/
theorem test_rssiCurve3 : after (fun t => (t.answers, t.faults)) (exec (.rssiCurve3 0x80) base) =
    some ([.fault .badCurve], 0b10000) := by decide

/-- F7: FAULTS after F1 and F6, and the register stays. -/
theorem test_faults : after (fun t => (t.answers, t.faults)) (exec .faults { base with faults := 5 }) =
    some ([.ok 5], 5) := by decide

/-- F6, for each of the five codes. -/
theorem test_reserved :
    ∀ i ∈ [Instr.reservedB, .reservedC, .reservedD, .reservedE, .reservedF],
      after (fun t => (t.answers, t.faults, t.tx)) (exec i { base with faults := 4 }) =
        some ([.fault .illegalOp], 5, Tx.cleared) := by decide

/-- P1: an INVENTORY command sent, V1's bytes with r[8] on the last. -/
theorem test_frameInventory_sent :
    after (fun t => (t.answers, t.tx.active, t.tx.sum)) (exec (.frameInventory .sent []) base) =
      some ([.ok 0, .ok 0xBB, .ok 0x00, .ok 0x22, .ok 0x00, .ok 0x00, .ok 0x22, .ok 0x17E],
        false, 0x22) := by decide

/-- V3 sent. -/
theorem test_frameMultiPoll_sent :
    answersOf (exec (.frameMultiPoll .sent [0x22, 0x27, 0x10]) base) =
      [.ok 0, .ok 0xBB, .ok 0x00, .ok 0x27, .ok 0x00, .ok 0x03, .ok 0x22, .ok 0x27, .ok 0x10,
        .ok 0x83, .ok 0x17E] := by decide

/-- V4 received: seven pushes, then RXSTAT: Ok, 7. -/
theorem test_frameStopMulti_received :
    after (fun t => (t.answers, t.rx.cmd, verdict t)) (exec (.frameStopMulti (.received 0) []) base) =
      some (List.replicate 8 (.ok 0) ++ [.ok 0x39], 0x28, none) := by decide

/-- SELECT with the payload byte 01, by hand: 0C+01+01 = 0E. -/
theorem test_frameSelect_sent : answersOf (exec (.frameSelect .sent [0x01]) base) =
    [.ok 0, .ok 0xBB, .ok 0x00, .ok 0x0C, .ok 0x00, .ok 0x01, .ok 0x01, .ok 0x0E, .ok 0x17E] := by
  decide

/-- V7a's frame under `CFG_ALT`, received. -/
theorem test_frameRead_received :
    after (fun t => (t.rx.sum, t.pay, verdict t))
      (exec (.frameRead (.received 1) [0xA5, 0x5A]) baseAlt) =
      some (0x3B, [(0, 0xA5), (1, 0x5A)], none) := by decide

/-- WRITE with the payload byte AA, by hand: 49+01+AA = F4. -/
theorem test_frameWrite_sent : answersOf (exec (.frameWrite .sent [0xAA]) base) =
    [.ok 0, .ok 0xBB, .ok 0x00, .ok 0x49, .ok 0x00, .ok 0x01, .ok 0xAA, .ok 0xF4, .ok 0x17E] := by
  decide

/-- P2: the ERROR reply E received. -/
theorem test_frameError_received :
    after (fun t => (t.rx, t.pay, verdict t)) (exec (.frameError (.received 1) [0x15]) base) =
      some (gotE.rx, [(0, 0x15)], none) := by decide

/-- V12: any command byte, header equal to trailer. -/
theorem test_frameOther_sent :
    answersOf (exec (.frameOther .sent 0x7E [0x7E]) { base with cfg := cfgSame }) =
      [.ok 0, .ok 0x7E, .ok 0x00, .ok 0x7E, .ok 0x00, .ok 0x01, .ok 0x7E, .ok 0xFD, .ok 0x17E] := by
  decide

/-- V29 as a DECODE request: it is no frame, and the RX unit takes it all the same. -/
theorem test_step_runOfNoFrame :
    after verdict (step { base with
      port := [.decode [0xBB, 0x01, 0xFF, 0x00, 0x01, 0x15, 0x17, 0x7E]] }) =
      some (some .checksumMismatch) := by decide

/-- A word at the port is performed and taken away: F8. -/
theorem test_step_word :
    after (fun t => (t.answers, t.port)) (step { inTx 0 0 0 with port := [.word 0x2FFFFF00] }) =
      some ([.ok 0xBB], []) := by decide

/-! ## Witnesses: concrete states and operands that meet the hypotheses of each obligation -/

/-- Every operation code and every curve select has a word (the word clauses of the
operations, RssiReadsTheClampedEntry and FaultsReadsTheStickyRegister among them). -/
theorem witness_CommandWordsDecodeByTheirFields :
    (∀ op : BitVec 4, (hostWord op 0 0).extractLsb' 28 4 = op) ∧
    (∀ v : BitVec 2, (hostWord 9 0 (rssiOperand v 0x80)).extractLsb' 28 4 = 0x9#4 ∧
      (hostWord 9 0 (rssiOperand v 0x80)).extractLsb' 8 2 = v) := by decide

theorem witness_SampleEncodingsDecode : cfgRef.header = 0xBB ∧ cfgRef.trailer = 0x7E ∧
    cfgRef.cmdInventory = 0x22 ∧ cfgRef.cmdError = 0xFF ∧ cfgRef.Valid :=
  ⟨rfl, rfl, rfl, rfl, test_cfgRef_valid⟩

/-- A well-formed instruction of every row. -/
theorem witness_DecodeOfEncodeIsIdentity : cfgRef.Valid ∧
    ∀ i ∈ [Instr.reset, .txbegin 0xFF 0xFFFF, .txstep 0xFF, .txstat, .rxpush 0xFF, .rxclr, .rxstat,
      .rxhdr, .rxget 0xFFFF, .rssi .custom 0xFF, .faults, .reservedB, .reservedC, .reservedD,
      .reservedE, .reservedF, .rssiCurve3 0xFF, .frameInventory .sent [], .frameMultiPoll .sent [1],
      .frameStopMulti (.received 0) [], .frameSelect .sent [], .frameRead (.received 1) [2, 3],
      .frameWrite .sent [0xBB], .frameError (.received 0xFF) [], .frameOther .sent 0x23 [0x7E]],
      i.wellFormed cfgRef = true := ⟨test_cfgRef_valid, by decide⟩

theorem witness_EncodeOfDecodeIsFaithful :
    decodeRequest cfgRef (.word 0x2FFFFF00) = .ok (.txstep 0) ∧
    decodeRequest cfgRef (.encode 0x22 []) = .ok (.frameInventory .sent []) ∧
    decodeRequest cfgRef (.decode frameE) = .ok (.frameError (.received 1) [0x15]) :=
  ⟨rfl, rfl, rfl⟩

theorem witness_StepRunsTheDecodedInstruction :
    decodeRequest base.cfg (.encode 0x22 []) = .ok (.frameInventory .sent []) ∧ base.cfg.Valid ∧
    Instr.wellFormed base.cfg (.txbegin 0x22 0) = true ∧
    encodeRequest base.cfg (.txbegin 0x22 0) = .word 0x10220000 ∧ base.port = [] :=
  ⟨rfl, test_cfgRef_valid, rfl, rfl, rfl⟩

theorem witness_FetchWordIsRunNext : 0xFFFFFFFF < 2 ^ 32 := by decide

theorem witness_ResetClearsEveryRegister : exec .reset gotE = .next (resetBlock gotE) := rfl

/-- A unit that is idle, a unit that is busy, and the state after a TXBEGIN. -/
theorem witness_TxbeginStartsAFrame : base.tx.active = false ∧ (inTx 1 3 0).tx.active = true ∧
    exec (.txbegin 0x27 3) base = .next (txBegin 0x27 3 base) := ⟨rfl, rfl, rfl⟩

/-- An active unit at every index class of the shortest frame, of a one-byte frame and of the
longest: the clauses of TXSTEP, their boundaries, and `tx_idx <= 6 + L` of R12. -/
theorem witness_TxstepEmitsTheNextByte : base.tx.active = false ∧
    ∀ x ∈ [((0 : Count), (0 : Half)), (1, 0), (2, 0), (3, 0), (4, 0), (5, 0), (6, 0), (5, 1), (6, 1),
      (7, 1), (5, 0xFFFF), (65539, 0xFFFF), (65540, 0xFFFF), (65541, 0xFFFF)],
      (inTx x.1 x.2 0).tx.active = true ∧
      (inTx x.1 x.2 0).tx.idx.toNat ≤ 6 + (inTx x.1 x.2 0).tx.len.toNat := by
  simp [inTx, base, State.reset, Tx.cleared]

/-- Every phase of R91 has a state. -/
theorem witness_TxPhasesFollowTheTable : txPhase base.tx = .idle ∧
    txPhase (inTx 0 1 0).tx = .header ∧ txPhase (inTx 1 1 0).tx = .type ∧
    txPhase (inTx 2 1 0).tx = .cmd ∧ txPhase (inTx 3 1 0).tx = .lenHi ∧
    txPhase (inTx 4 1 0).tx = .lenLo ∧ txPhase (inTx 5 1 0).tx = .payload ∧
    txPhase (inTx 5 0 0).tx = .cksum ∧ txPhase (inTx 7 1 0).tx = .trailer ∧
    (inTx 7 1 0).tx.idx.toNat ≤ 6 + (inTx 7 1 0).tx.len.toNat := by decide

/-- TXBEGIN from IDLE, and RESET from a frame. -/
theorem witness_TxPhasesFollowTheTable_begin : txPhase base.tx = .idle ∧
    exec (.txbegin 0x27 1) base = .next (txBegin 0x27 1 base) ∧
    exec .reset (inTx 5 1 0) = .next (resetBlock (inTx 5 1 0)) := ⟨by decide, rfl, rfl⟩

/-- An RX operation, and the trailer's TXSTEP, in a frame. -/
theorem witness_AFrameInProgressIsNotDisturbed : (inTx 9 3 0).tx.active = true ∧
    exec (.rxpush 0xBB) (inTx 9 3 0) = .next (rxPush 0xBB (inTx 9 3 0)) ∧
    exec (.txstep 0) (inTx 9 3 0) = .next (txStep 0 (inTx 9 3 0)) ∧
    (txStep 0 (inTx 9 3 0)).tx.active = false := ⟨rfl, rfl, rfl, rfl⟩

/-- The invariant holds right after power-up under `CFG_REF`. -/
theorem witness_base_inv : base.Inv where
  cfg := test_cfgRef_valid
  pay := by decide
  tx := ⟨by decide, by decide⟩
  rx := ⟨fun _ => rfl, fun _ => rfl, fun _ => rfl, fun _ => rfl, fun _ => rfl, rfl, by decide⟩

theorem witness_TxstatReadsTheTransmitStatus : base.Inv ∧ base.tx.active = false :=
  ⟨witness_base_inv, rfl⟩

/-- A frame of one payload byte with operations of other units in between. -/
theorem witness_TxUnitEmitsEncode :
    let ds : List Byte := [0, 0, 0, 0, 0, 0xAA, 0, 0]
    let ops := Instr.rxclr :: .txbegin 0x49 (BitVec.ofNat 16 [(0xAA : Byte)].length) :: .txstat ::
      ds.map .txstep ++ [.reservedB]
    base.tx.active = false ∧ [(0xAA : Byte)].length ≤ 65535 ∧
    (∀ i ∈ ops, i.isHostOp = true ∧ i ≠ .reset) ∧
    ops.filter Instr.drivesTx = .txbegin 0x49 (BitVec.ofNat 16 [(0xAA : Byte)].length) ::
      ds.map .txstep ∧
    ds.length = [(0xAA : Byte)].length + 7 ∧ (ds.drop 5).take [(0xAA : Byte)].length = [0xAA] := by
  decide

/-- Each clause of RXPUSH has a count and a length: the head bytes, the first and the last payload
byte, the checksum and trailer places with and without a payload, a byte beyond, the last counts. -/
theorem witness_RxpushTakesTheNextByte :
    ∀ x ∈ [((0 : Count), (0 : Half)), (1, 0), (2, 0), (3, 0), (4, 0), (5, 1), (6, 1), (7, 1), (5, 0),
      (6, 0), (5, 0xFFFF), (65539, 0xFFFF), (65540, 0xFFFF), (131070, 0), (131071, 0xFFFF)],
      ((inRx x.1 true x.2 0 0 0).rx.count, (inRx x.1 true x.2 0 0 0).rx.len) = x := fun _ _ => rfl

theorem witness_RxclrDiscardsTheRun : exec .rxclr gotE = .next (rxClear gotE) := rfl

/-- Every verdict has a state (VerdictsByTheirCauses, RxstatReadsVerdictAndCount), the Incomplete and
LengthMismatch ones at both ends of their range. -/
theorem witness_VerdictsByTheirCauses : verdict base = some .incomplete ∧
    verdict (inRx 7 true 1 0x16 0x16 0x16) = some .incomplete ∧
    verdict (inRx 1 false 0 0 0 0) = some .badMarker ∧
    verdict (inRx 8 true 1 0x16 0x16 0x7F) = some .badMarker ∧
    verdict (inRx 9 true 1 0x16 0x16 0x7E) = some .lengthMismatch ∧
    verdict (inRx 131071 true 1 0x16 0x16 0x7E) = some .lengthMismatch ∧
    verdict (inRx 8 true 1 0x16 0x17 0x7E) = some .checksumMismatch ∧
    verdict gotE = none := by decide

theorem witness_RxhdrReadsTheHeader : verdict gotE = none ∧ verdict base ≠ none := by decide

/-- The first and the last payload byte, and the first index beyond. -/
theorem witness_RxgetReadsAPayloadByte : verdict gotE = none ∧
    (0 : Half).toNat < gotE.rx.len.toNat ∧ gotE.rx.len.toNat ≤ (1 : Half).toNat ∧
    verdict (inRx 65542 true 0xFFFF 0 0 0x7E) = none ∧
    (0xFFFE : Half).toNat < (inRx 65542 true 0xFFFF 0 0 0x7E).rx.len.toNat ∧
    (inRx 65542 true 0xFFFF 0 0 0x7E).rx.len.toNat ≤ (0xFFFF : Half).toNat ∧
    verdict base ≠ none := by decide

/-- The run E after RXCLR and after RESET, with reads and TX operations in between; E decodes to a
frame with a payload byte (RxRegistersHoldTheRun, RxVerdictIsDecodeOfTheRun). -/
theorem witness_RxRegistersHoldTheRun :
    ∀ first ∈ [Instr.rxclr, .reset],
      let ops := Instr.txstat :: first :: .rxstat :: frameE.map .rxpush ++ [.txstep 0, .rxhdr]
      (∀ i ∈ ops, i.isHostOp = true) ∧ (first = .rxclr ∨ first = .reset) ∧
      ops.filter Instr.writesRx = first :: frameE.map .rxpush := by decide

theorem witness_RxVerdictIsDecodeOfTheRun :
    frameDecode cfgRef frameE = .ok { type := 0x01, command := 0xFF, payload := [0x15] } ∧
    (0 : Half).toNat < [(0x15 : Byte)].length := ⟨rfl, by decide⟩

/-- A push onto a run that is over, and the push that ends one in each way. -/
theorem witness_VerdictsAlongOneRun : verdict gotE ≠ some .incomplete ∧
    exec (.rxpush 0x7E) gotE = .next (rxPush 0x7E gotE) ∧
    (∀ b ∈ [(0x7E : Byte), 0x7F],
      verdict (inRx 7 true 1 0x16 0x16 0x16) = some .incomplete ∧
      (rxPush b (inRx 7 true 1 0x16 0x16 0x16)).rx.hdrOk = true ∧
      verdict (rxPush b (inRx 7 true 1 0x16 0x16 0x16)) ≠ some .incomplete) ∧
    [(0x00 : Byte)] ≠ [] := ⟨by decide, rfl, by decide, by decide⟩

theorem witness_TheDecodedFrameIsStable : verdict gotE = none ∧ Instr.writesRx .rxhdr = false ∧
    exec .rxhdr gotE = .next (rxHdr gotE) := ⟨by decide, rfl, rfl⟩

/-- Two memories that differ in a cell the run has not stored; a step that goes on and one that is
refused. -/
theorem witness_UnwrittenPayloadIsUnobservable :
    (∀ k, k < rxStored gotE.rx → payGet? [(0, 0x15), (7, 0x99)] k = payGet? gotE.pay k) ∧
    (∃ t, step { gotE with port := [.word 0x80000000] } = .next t) ∧
    step { gotE with port := [.encode 0 (List.replicate 65536 0)] } = .refused .payloadTooLong := by
  refine ⟨by decide, ⟨_, rfl⟩, ?_⟩
  rw [step_request rfl, decodeRequest, if_neg (by simp only [List.length_replicate, maxPayload]; decide)]
  rfl

theorem witness_EstimateLaws : cfgRef.rssiMin.toInt ≤ cfgRef.rssiMax.toInt ∧ cfgRef.Valid ∧
    (0x00 : Byte).toNat ≤ (0xFF : Byte).toNat ∧ base.cfg = { gotE with tx := base.tx }.cfg :=
  ⟨by decide, test_cfgRef_valid, by decide, rfl⟩

/-- The lowest and the highest reserved code. -/
theorem witness_ReservedCodesFault :
    0xB ≤ ((0xB0000000 : Word).extractLsb' 28 4).toNat ∧
    0xB ≤ ((0xFFFFFFFF : Word).extractLsb' 28 4).toNat := by decide

/-- Each of the five faults is raised by some operation (FaultCausesAreComplete,
FaultsArePreciseAndSticky), and an operation answers ok. -/
theorem witness_FaultsArePreciseAndSticky :
    answersOf (exec .reservedC base) = [.fault .illegalOp] ∧
    answersOf (exec (.txbegin 0 0) (inTx 0 0 0)) = [.fault .txBusy] ∧
    answersOf (exec (.txstep 0) base) = [.fault .txIdle] ∧
    answersOf (exec (.rxget 0) base) = [.fault .rxInvalid] ∧
    answersOf (exec (.rssiCurve3 0) base) = [.fault .badCurve] ∧
    answersOf (exec .rxclr base) = [.ok 0] := by decide

/-- A status read that answers ok and one that faults. -/
theorem witness_StatusReadsAreIdempotent : answersOf (exec .rxhdr gotE) = [.ok 0x01FF0001] ∧
    answersOf (exec .rxhdr base) = [.fault .rxInvalid] := by decide

/-- A push that stores, so that one cell is the exception, and operations of each kind. -/
theorem witness_OperationsTouchOnlyTheirOwnUnit : Instr.isHostOp (.rxpush 0x15) = true ∧
    5 ≤ (inRx 5 true 1 1 0 1).rx.count.toNat ∧
    (inRx 5 true 1 1 0 1).rx.count.toNat < 5 + (inRx 5 true 1 1 0 1).rx.len.toNat ∧
    Instr.drivesTx .rxclr = false ∧ Instr.writesRx .txstat = false := by decide

theorem witness_OperationsOfDifferentUnitsCommute : Instr.unit? (.txstep 0) = some .tx ∧
    Instr.unit? (.rxpush 0) = some .rx ∧ Instr.unit? (.rssiCurve3 0) = some .rssi ∧
    BlockUnit.tx ≠ .rx := by decide

/-- The shortest and the longest payload (FrameLayout, RoundTrip, the frame statements). -/
theorem witness_FrameLayout : ([] : List Byte).length ≤ 65535 ∧
    (List.replicate 65535 (0xFF : Byte)).length ≤ 65535 ∧
    65534 < (List.replicate 65535 (0xFF : Byte)).length := by
  simp only [List.length_replicate, List.length_nil]
  decide

theorem witness_ValidFramesAreFrameBytes : 7 ≤ frameV1.length ∧ frameV1.getD 0 0 = cfgRef.header ∧
    frameV1.getD (frameV1.length - 1) 0 = cfgRef.trailer ∧
    be16 (frameV1.getD 3 0) (frameV1.getD 4 0) = frameV1.length - 7 ∧
    sum8 ((frameV1.drop 1).take (frameV1.length - 3)) = frameV1.getD (frameV1.length - 2) 0 := by
  decide

theorem witness_DecodeIsExact :
    frameDecode cfgRef frameV1 = .ok { type := 0x00, command := 0x22, payload := [] } ∧
    frameV1 = frameBytes cfgRef 0x00 0x22 [] := ⟨rfl, by decide⟩

theorem witness_RoundTrip : base.cfg = cfgRef ∧ [(0x15 : Byte)].length ≤ 65535 := ⟨rfl, by decide⟩

theorem witness_HeaderIsTestedFirst : [(0x00 : Byte)] ≠ [] ∧
    [(0x00 : Byte)].getD 0 0 ≠ cfgRef.header ∧ frameDecode cfgRef [0xBB] = .error .incomplete := by
  refine ⟨by decide, by decide, rfl⟩

/-- V30 to V37: a bit of E in every place, both outcomes of a length byte among them. -/
theorem witness_SingleBitCorruption : frameBytes cfgRef 0x01 0xFF [0x15] = frameE ∧
    frameE.set 0 (0xBB ^^^ (1#8 <<< 0)) = [0xBA, 0x01, 0xFF, 0x00, 0x01, 0x15, 0x16, 0x7E] ∧
    (∀ i ∈ [0, 1, 2, 3, 4, 5, 6, 7], i < [(0x15 : Byte)].length + 7) ∧
    [(0x15 : Byte)].length < be16 (0x00 ^^^ (1#8 <<< 0)) 0x01 ∧
    be16 0x00 (0x01 ^^^ (1#8 <<< 0)) < [(0x15 : Byte)].length ∧
    [(0x15 : Byte)].length < be16 0x00 (0x01 ^^^ (1#8 <<< 7)) := by decide

/-- The empty prefix and the longest proper one (PrefixesAreIncomplete); a byte after a frame
(BytesAfterAFrame), the trailer's value or another. -/
theorem witness_PrefixesAreIncomplete : 0 < ([] : List Byte).length + 7 ∧
    6 < ([] : List Byte).length + 7 := by decide

theorem witness_BytesAfterAFrame : [cfgRef.trailer] ≠ [] ∧
    [cfgRef.trailer].getD 0 0 = cfgRef.trailer ∧ [(0x00 : Byte)].getD 0 0 ≠ cfgRef.trailer := by
  decide

/-- Each of the eight FRAME rows stands for a frame on both sides
(FrameInstructionsAreTheirExpansions, SentFramesAreEncoded, ReceivedFramesAreDecoded). -/
theorem witness_FrameInstructionsAreTheirExpansions :
    ∀ way ∈ [Way.sent, .received 0x01],
      (Instr.frameInventory way [0x15]).frame? cfgRef = some (way, 0x22, [0x15]) ∧
      (Instr.frameMultiPoll way [0x15]).frame? cfgRef = some (way, 0x27, [0x15]) ∧
      (Instr.frameStopMulti way [0x15]).frame? cfgRef = some (way, 0x28, [0x15]) ∧
      (Instr.frameSelect way [0x15]).frame? cfgRef = some (way, 0x0C, [0x15]) ∧
      (Instr.frameRead way [0x15]).frame? cfgRef = some (way, 0x39, [0x15]) ∧
      (Instr.frameWrite way [0x15]).frame? cfgRef = some (way, 0x49, [0x15]) ∧
      (Instr.frameError way [0x15]).frame? cfgRef = some (way, 0xFF, [0x15]) ∧
      (Instr.frameOther way 0x23 [0x15]).frame? cfgRef = some (way, 0x23, [0x15]) :=
  fun _ _ => ⟨rfl, rfl, rfl, rfl, rfl, rfl, rfl, rfl⟩

theorem witness_SentFramesAreEncoded : base.tx.active = false ∧
    (Instr.frameOther .sent 0x23 []).frame? base.cfg = some (.sent, 0x23, []) := by decide

theorem witness_ReceivedFramesAreDecoded :
    (Instr.frameError (.received 0x01) [0x15]).frame? base.cfg =
      some (.received 0x01, 0xFF, [0x15]) := by decide

/-- Runs that end in each of the four errors. -/
theorem witness_RunsThatAreNoFrameAreDecodedToo :
    ({ base with port := [.decode []] } : State).port = .decode [] :: [] ∧
    frameDecode cfgRef [] = .error .incomplete ∧ frameDecode cfgRef [0x00] = .error .badMarker ∧
    frameDecode cfgRef (frameE ++ [0x7E]) = .error .lengthMismatch ∧
    frameDecode cfgRef [0xBB, 0x00, 0x22, 0x00, 0x00, 0x7E, 0x7E] = .error .checksumMismatch :=
  ⟨rfl, rfl, rfl, rfl, rfl⟩

/-- The shortest payload that is too long, on both sides. -/
theorem witness_LongPayloadsAreRefused : 65535 < (List.replicate 65536 (0 : Byte)).length ∧
    ∀ way, (Instr.frameWrite way (List.replicate 65536 0)).frame? base.cfg =
      some (way, 0x49, List.replicate 65536 0) := by
  refine ⟨?_, fun way => rfl⟩
  rw [List.length_replicate]
  decide

theorem witness_ReadframeReadsTheFrame : verdict gotE = none := by decide

/-- A step that answers next, from a state that meets the invariant (ConfigurationIsHardwired,
OnlyResetClearsAFaultBit, EveryStepKeepsTheInvariant): a word that faults, and RESET. -/
theorem witness_EveryStepKeepsTheInvariant :
    State.Inv { base with port := [.word 0x20000000, .word 0] } ∧
    (∃ t, step { base with port := [.word 0x20000000, .word 0] } = .next t ∧ t.faults = 0b00100) ∧
    ∃ t, step { base with faults := 1, port := [.word 0] } = .next t ∧ t.faults = 0 :=
  ⟨⟨witness_base_inv.cfg, witness_base_inv.pay, witness_base_inv.tx, witness_base_inv.rx⟩,
    ⟨_, rfl, rfl⟩, ⟨_, rfl, rfl⟩⟩

end Sys2Proof.Tests
end

section
/-! SUPPORT and PROOFS. What each host operation can do to each unit, every step as a sequence of
host operations (R50, R81), and the statements of 10_state.md that follow at once. -/

namespace Sys2Proof.Machine

/-! ## The host operations, unit by unit

What any host operation can do to the registers of each unit, to `rx_pay` and to `faults`: the
inversion lemmas from which every invariant below is derived. -/

theorem writesRx_eq_true {i : Instr} (h : i.writesRx = true) :
    (∃ b, i = .rxpush b) ∨ i = .rxclr ∨ i = .reset := by
  cases i <;> simp_all [Instr.writesRx]

theorem drivesTx_eq_true {i : Instr} (h : i.drivesTx = true) :
    (∃ c l, i = .txbegin c l) ∨ ∃ d, i = .txstep d := by
  cases i <;> simp_all [Instr.drivesTx]

/-- Where a host operation leaves the RX registers and `rx_pay` (R15): as they were, after one more
byte of the run, or cleared with `rx_pay` kept. -/
theorem exec_host_rx {i : Instr} (hi : i.isHostOp = true) {s t : State}
    (h : exec i s = .next t) :
    (i.writesRx = false ∧ t.rx = s.rx ∧ t.pay = s.pay) ∨
    (∃ b, i = .rxpush b ∧ t.rx = rxNext s.cfg s.rx b ∧ t.pay = rxStore s.rx b s.pay) ∨
    ((i = .rxclr ∨ i = .reset) ∧ t.rx = Rx.cleared ∧ t.pay = s.pay) := by
  cases hw : i.writesRx with
  | false =>
    obtain ⟨_, _, _, hrx⟩ := exec_host_units hi h
    exact .inl ⟨rfl, hrx hw⟩
  | true =>
    rcases writesRx_eq_true hw with ⟨b, rfl⟩ | rfl | rfl <;> cases h
    · exact .inr (.inl ⟨b, rfl, rfl, rfl⟩)
    · exact .inr (.inr ⟨.inl rfl, rfl, rfl⟩)
    · exact .inr (.inr ⟨.inr rfl, rfl, rfl⟩)

/-- Where a host operation leaves the TX registers (R11): as they were, cleared, at the start of a
frame, or one byte on in a frame in progress. -/
theorem exec_host_tx {i : Instr} (hi : i.isHostOp = true) {s t : State}
    (h : exec i s = .next t) :
    t.tx = s.tx ∨ t.tx = Tx.cleared ∨
    (∃ c l, t.tx = { active := true, idx := 0, cmd := c, len := l, sum := 0 }) ∨
    (s.tx.active = true ∧ ∃ out, t.tx = txAdvance s.tx out) := by
  cases hd : i.drivesTx with
  | false =>
    by_cases hr : i = .reset
    · subst hr
      cases h
      exact .inr (.inl rfl)
    · obtain ⟨_, _, htx, _⟩ := exec_host_units hi h
      exact .inl (htx hd hr)
  | true =>
    rcases drivesTx_eq_true hd with ⟨c, l, rfl⟩ | ⟨d, rfl⟩ <;> cases h
    · rcases txBegin_cases c l s with ⟨_, e⟩ | ⟨_, e⟩ <;> rw [e]
      · exact .inl rfl
      · exact .inr (.inr (.inl ⟨c, l, rfl⟩))
    · rcases txStep_cases d s with ⟨_, e⟩ | ⟨ha, e⟩ <;> rw [e]
      · exact .inl rfl
      · exact .inr (.inr (.inr ⟨ha, _, rfl⟩))

/-- Where a host operation leaves `faults` (R20, R190): cleared by RESET, else as it was or with
one bit set. -/
theorem exec_host_faults {i : Instr} (hi : i.isHostOp = true) {s t : State}
    (h : exec i s = .next t) :
    (i = .reset ∧ t.faults = 0) ∨ t.faults = s.faults ∨
      ∃ f, t.faults = s.faults ||| faultBit f := by
  cases i <;> simp only [Instr.isHostOp, Bool.false_eq_true] at hi <;> cases h
  case reset => exact .inl ⟨rfl, rfl⟩
  case txbegin c l =>
    rcases txBegin_cases c l s with ⟨_, e⟩ | ⟨_, e⟩ <;> rw [e]
    · exact .inr (.inr ⟨_, rfl⟩)
    · exact .inr (.inl rfl)
  case txstep d =>
    rcases txStep_cases d s with ⟨_, e⟩ | ⟨_, e⟩ <;> rw [e]
    · exact .inr (.inr ⟨_, rfl⟩)
    · exact .inr (.inl rfl)
  case rxhdr =>
    rcases rxHdr_cases s with ⟨_, e⟩ | ⟨_, e⟩ <;> rw [e]
    · exact .inr (.inr ⟨_, rfl⟩)
    · exact .inr (.inl rfl)
  case rxget k =>
    rcases rxGet_cases k s with ⟨_, e⟩ | ⟨_, _, e⟩ <;> rw [e]
    · exact .inr (.inr ⟨_, rfl⟩)
    · exact .inr (.inl rfl)
  case rssiCurve3 => exact .inr (.inr ⟨_, rfl⟩)
  case reservedB | reservedC | reservedD | reservedE | reservedF =>
    exact .inr (.inr ⟨_, rfl⟩)
  all_goals exact .inr (.inl rfl)

/-- A push outside the payload phase, or read at another cell, leaves the byte read there (R41). -/
theorem payRead_rxStore_of_not {rx : Rx} {b : Byte} {m : Memory} {k : Nat}
    (h : ¬ (5 ≤ rx.count.toNat ∧ rx.count.toNat < 5 + rx.len.toNat ∧ k = rx.count.toNat - 5)) :
    payRead (rxStore rx b m) k = payRead m k := by
  rw [payRead, rxStore_get, if_neg h, payRead]

/-! ## Sequences of host operations -/

/-- A sequence that is performed whole performs its first operation, then the others. -/
theorem issueAll_cons_inv {i : Instr} {is : List Instr} {s t : State} {as : List Answer}
    (h : issueAll (i :: is) s = some (t, as)) :
    ∃ u bs, exec i s = .next u ∧ issueAll is u = some (t, bs) ∧ as = u.answers ++ bs := by
  rw [issueAll] at h
  split at h
  case h_1 u hu =>
    split at h
    case h_1 v bs hv =>
      cases h
      exact ⟨u, bs, hu, hv, rfl⟩
    case h_2 => cases h
  all_goals cases h

/-- What every operation of a sequence keeps, the sequence keeps. -/
theorem issueAll_keeps {P : State → Prop} : ∀ {ops : List Instr} {s t : State} {as : List Answer},
    (∀ i ∈ ops, ∀ u v, exec i u = .next v → P u → P v) →
    issueAll ops s = some (t, as) → P s → P t
  | [], _, _, _, _, h, hs => by
    cases h
    exact hs
  | i :: is, s, _, _, hk, h, hs => by
    obtain ⟨u, bs, hx, hr, rfl⟩ := issueAll_cons_inv h
    exact issueAll_keeps (fun j hj => hk j (List.mem_cons_of_mem _ hj)) hr
      (hk i List.mem_cons_self s u hx hs)

/-! ## Every step is a sequence of host operations -/

/-- The expansion of `ENCODE c, p` (R81). -/
def encodeOps (c : Byte) (p : List Byte) : List Instr :=
  .txbegin c (BitVec.ofNat 16 p.length) :: (stepOperands p).map .txstep

/-- The expansion of `DECODE b` (R81). -/
def decodeOps (b : List Byte) : List Instr := .rxclr :: b.map .rxpush ++ [.rxstat]

theorem mem_encodeOps {c : Byte} {p : List Byte} {i : Instr} (h : i ∈ encodeOps c p) :
    i.isHostOp = true ∧ i ≠ .reset := by
  simp only [encodeOps, List.mem_cons, List.mem_map] at h
  rcases h with rfl | ⟨d, _, rfl⟩ <;> simp [Instr.isHostOp]

theorem mem_decodeOps {b : List Byte} {i : Instr} (h : i ∈ decodeOps b) :
    i.isHostOp = true ∧ i ≠ .reset := by
  simp only [decodeOps, List.cons_append, List.mem_cons, List.mem_append, List.mem_map,
    List.not_mem_nil, or_false] at h
  rcases h with rfl | ⟨d, _, rfl⟩ | rfl <;> simp [Instr.isHostOp]

/-- `ENCODE` in one step is its expansion, issued one by one. -/
theorem encodeRun_issueAll (c : Byte) (p : List Byte) (s : State) :
    ∃ u as, issueAll (encodeOps c p) s = some (u, as) ∧
      encodeRun c p s = { u with answers := as } := by
  refine performAll_issueAll (.cons (fun _ => rfl) ?_) s
  rw [List.forall₂_map_left_iff, List.forall₂_map_right_iff, List.forall₂_same]
  exact fun _ _ _ => rfl

/-- `DECODE` in one step is its expansion, issued one by one. -/
theorem decodeRun_issueAll (b : List Byte) (s : State) :
    ∃ u as, issueAll (decodeOps b) s = some (u, as) ∧
      decodeRun b s = { u with answers := as } := by
  have hpush : List.Forall₂ (fun i op => ∀ s, exec i s = .next (op s))
      (b.map Instr.rxpush) (b.map rxPush) := by
    rw [List.forall₂_map_left_iff, List.forall₂_map_right_iff, List.forall₂_same]
    exact fun _ _ _ => rfl
  exact performAll_issueAll (.cons (fun _ => rfl)
    (List.rel_append hpush (.cons (fun _ => rfl) .nil))) s

theorem frame?_nameFrame (cfg : Config) (way : Way) (c : Byte) (p : List Byte) :
    (nameFrame cfg way c p).frame? cfg = some (way, c, p) := by
  unfold nameFrame
  split_ifs with h₁ h₂ h₃ h₄ h₅ h₆ h₇ <;> simp [Instr.frame?, *]

/-- A frame named from its command byte is performed as that frame. -/
theorem exec_nameFrame (way : Way) (c : Byte) (p : List Byte) (s : State) :
    exec (nameFrame s.cfg way c p) s = frameOp c way p s :=
  exec_frame (frame?_nameFrame s.cfg way c p)

theorem frameOp_sent (c : Byte) {p : List Byte} (hl : p.length ≤ maxPayload) (s : State) :
    frameOp c .sent p s = .next (encodeRun c p s) := if_pos (decide_eq_true hl)

theorem frameOp_received (c ty : Byte) {p : List Byte} (hl : p.length ≤ maxPayload) (s : State) :
    frameOp c (.received ty) p s = .next (decodeRun (frameBytes s.cfg ty c p) s) :=
  if_pos (decide_eq_true hl)

theorem frameOp_of_long (c : Byte) (way : Way) {p : List Byte} (hl : maxPayload < p.length)
    (s : State) : frameOp c way p s = .refused .payloadTooLong :=
  if_neg (by simpa [payloadFits] using hl)

/-- `ops` are host operations that, issued in order, come to what the block does with the request
`r` under the configuration `cfg`; RESET is among them only where `r` is a RESET word. -/
structure ExpandsTo (cfg : Config) (r : Request) (ops : List Instr) : Prop where
  host : ∀ i ∈ ops, i.isHostOp = true
  reset : .reset ∈ ops → ops = [.reset] ∧ ∃ w, r = .word w ∧ decodeWord w = .reset
  step : ∀ s rest, s.cfg = cfg → s.port = r :: rest → ∃ u as,
    issueAll ops { s with port := rest } = some (u, as) ∧ step s = .next { u with answers := as }

theorem decodeWord_isHostOp (w : Word) : (decodeWord w).isHostOp = true := by
  unfold decodeWord
  split
  case h_10 => split <;> rfl
  all_goals rfl

theorem expandsTo_word (cfg : Config) (w : Word) :
    ExpandsTo cfg (.word w) [decodeWord w] where
  host i hi := by rw [List.mem_singleton.1 hi]; exact decodeWord_isHostOp w
  reset h := by
    have hw : .reset = decodeWord w := List.mem_singleton.1 h
    exact ⟨by rw [← hw], w, rfl, hw.symm⟩
  step s rest _ hp := by
    obtain ⟨t, a, ht, ha⟩ := exec_host_next (decodeWord_isHostOp w) { s with port := rest }
    refine ⟨t, t.answers ++ [], issueAll_cons ht rfl, ?_⟩
    rw [step_request hp, List.append_nil]
    exact ht

theorem expandsTo_encode (cfg : Config) (c : Byte) {p : List Byte} (hl : p.length ≤ maxPayload) :
    ExpandsTo cfg (.encode c p) (encodeOps c p) where
  host i hi := (mem_encodeOps hi).1
  reset h := absurd rfl (mem_encodeOps h).2
  step s rest _ hp := by
    obtain ⟨u, as, hu, he⟩ := encodeRun_issueAll c p { s with port := rest }
    refine ⟨u, as, hu, ?_⟩
    rw [step_request hp, decodeRequest, if_pos hl, ← he]
    exact (exec_nameFrame .sent c p { s with port := rest }).trans (frameOp_sent c hl _)

/-- A decoded payload fits the length field that declared it (R13). -/
theorem frameDecode_payload_length {cfg : Config} {b : List Byte} {f : Frame}
    (h : frameDecode cfg b = .ok f) : f.payload.length ≤ maxPayload := by
  have hlen : be16 (b.getD 3 0) (b.getD 4 0) ≤ maxPayload := by
    have := (b.getD 3 0).isLt
    have := (b.getD 4 0).isLt
    rw [be16, maxPayload]
    omega
  simp only [frameDecode] at h
  split_ifs at h
  cases h
  exact (List.length_take_le _ _).trans hlen

/-- A step on a DECODE request performs the expansion of R81 on some run of bytes. -/
theorem step_decode (cfg : Config) (b : List Byte) : ∃ run, ∀ s rest, s.cfg = cfg →
    s.port = .decode b :: rest → step s = .next (decodeRun run { s with port := rest }) := by
  cases hd : frameDecode cfg b with
  | ok f =>
    refine ⟨frameBytes cfg f.type f.command f.payload, fun s rest hc hp => ?_⟩
    subst hc
    rw [step_request hp, decodeRequest, hd]
    exact (exec_nameFrame (.received f.type) f.command f.payload { s with port := rest }).trans
      (frameOp_received _ _ (frameDecode_payload_length hd) _)
  | error e =>
    refine ⟨b, fun s rest hc hp => ?_⟩
    subst hc
    rw [step_request hp, decodeRequest, hd]
    rfl

theorem expandsTo_decode (cfg : Config) (b : List Byte) :
    ∃ run, ExpandsTo cfg (.decode b) (decodeOps run) := by
  obtain ⟨run, hstep⟩ := step_decode cfg b
  refine ⟨run, fun i hi => (mem_decodeOps hi).1, fun h => absurd rfl (mem_decodeOps h).2,
    fun s rest hc hp => ?_⟩
  obtain ⟨u, as, hu, he⟩ := decodeRun_issueAll run { s with port := rest }
  exact ⟨u, as, hu, by rw [hstep s rest hc hp, he]⟩

/-- An ENCODE request of a payload that the length field cannot declare is refused (R13). -/
theorem step_encode_long {s : State} {c : Byte} {p : List Byte} {rest : List Request}
    (hl : maxPayload < p.length) (hp : s.port = .encode c p :: rest) :
    step s = .refused .payloadTooLong := by
  rw [step_request hp, decodeRequest, if_neg (by omega)]
  rfl

/-- What a request comes to depends on the request and the configuration alone: a sequence of host
operations, or the refusal of a payload that is too long. -/
theorem expandsTo_or_refused (cfg : Config) (r : Request) :
    (∃ ops, ExpandsTo cfg r ops) ∨
    ∀ s rest, s.cfg = cfg → s.port = r :: rest → step s = .refused .payloadTooLong := by
  cases r with
  | word w => exact .inl ⟨_, expandsTo_word cfg w⟩
  | encode c p =>
    by_cases hl : p.length ≤ maxPayload
    · exact .inl ⟨_, expandsTo_encode cfg c hl⟩
    · exact .inr fun s rest _ hp => step_encode_long (by omega) hp
  | decode b =>
    obtain ⟨run, h⟩ := expandsTo_decode cfg b
    exact .inl ⟨_, h⟩

/-- A step that answers a next state took no request, or issued the operations its request expands
to. -/
theorem step_issues {s t : State} (h : step s = .next t) :
    (s.port = [] ∧ t = s) ∨
    ∃ r rest ops u as, s.port = r :: rest ∧ ExpandsTo s.cfg r ops ∧
      issueAll ops { s with port := rest } = some (u, as) ∧ t = { u with answers := as } := by
  rcases hp : s.port with _ | ⟨r, rest⟩
  · rw [step_idle hp] at h
    cases h
    exact .inl ⟨rfl, rfl⟩
  · rcases expandsTo_or_refused s.cfg r with ⟨ops, hx⟩ | hr
    · obtain ⟨u, as, hu, hs⟩ := hx.step s rest rfl hp
      rw [hs] at h
      cases h
      exact .inr ⟨r, rest, ops, u, as, rfl, hx, hu, rfl⟩
    · rw [hr s rest rfl hp] at h
      cases h

/-- A step that refuses does so whatever the registers and `rx_pay` hold. -/
theorem step_refuses {s : State} {e : Refusal} (h : step s = .refused e) :
    ∃ r rest, s.port = r :: rest ∧
      ∀ u : State, u.cfg = s.cfg → u.port = r :: rest → step u = .refused e := by
  rcases hp : s.port with _ | ⟨r, rest⟩
  · rw [step_idle hp] at h
    cases h
  · rcases expandsTo_or_refused s.cfg r with ⟨ops, hx⟩ | hr
    · obtain ⟨u, as, _, hs⟩ := hx.step s rest rfl hp
      rw [hs] at h
      cases h
    · rw [hr s rest rfl hp] at h
      cases h
      exact ⟨r, rest, rfl, fun u hc hu => hr u rest hc hu⟩

/-- What every host operation keeps, whatever the port and the answers are, every step keeps. -/
theorem step_keeps {P : State → Prop} (hport : ∀ s q, P s → P { s with port := q })
    (hans : ∀ s a, P s → P { s with answers := a })
    (hop : ∀ i s t, i.isHostOp = true → exec i s = .next t → P s → P t) {s t : State}
    (h : step s = .next t) (hs : P s) : P t := by
  rcases step_issues h with ⟨_, rfl⟩ | ⟨r, rest, ops, u, as, _, hx, hu, rfl⟩
  · exact hs
  · exact hans u as (issueAll_keeps (fun i hi v w => hop i v w (hx.host i hi)) hu (hport s rest hs))

/-! ## The configuration, the faults and the refusals -/

/-- Settles O51: every host operation keeps the configuration, hence every step does. -/
theorem configurationIsHardwired : Obligations.ConfigurationIsHardwired := fun s _ h =>
  step_keeps (P := fun u => u.cfg = s.cfg) (fun _ _ hu => hu) (fun _ _ hu => hu)
    (fun _ _ _ hi hx hu => (exec_host_units hi hx).1.trans hu) h rfl

/-- A host operation other than RESET keeps every fault bit that is set (R20, R190). -/
theorem exec_host_faults_keep {i : Instr} (hi : i.isHostOp = true) (hr : i ≠ .reset)
    {s t : State} (h : exec i s = .next t) {f : BitVec 5} (hf : f &&& s.faults = f) :
    f &&& t.faults = f := by
  rcases exec_host_faults hi h with ⟨e, _⟩ | e | ⟨g, e⟩
  · exact absurd e hr
  · rw [e, hf]
  · rw [e, BitVec.and_or_distrib_left, hf]
    ext i
    simp +contextual

/-- Settles O52: RESET stands in the expansion of a RESET word alone, and every other host
operation keeps the bits that are set. -/
theorem onlyResetClearsAFaultBit : Obligations.OnlyResetClearsAFaultBit := by
  intro s t h
  rcases step_issues h with ⟨_, rfl⟩ | ⟨r, rest, ops, u, as, hp, hx, hu, rfl⟩
  · exact .inl BitVec.and_self
  · by_cases hr : .reset ∈ ops
    · obtain ⟨rfl, w, rfl, hw⟩ := hx.reset hr
      cases hu
      exact .inr ⟨w, rest, hp, hw, rfl⟩
    · have keep : ∀ i ∈ ops, ∀ v w, exec i v = .next w →
          s.faults &&& v.faults = s.faults → s.faults &&& w.faults = s.faults := fun i hi v w hv =>
        exec_host_faults_keep (hx.host i hi) (fun e => hr (e ▸ hi)) hv
      have kept : s.faults &&& u.faults = s.faults :=
        issueAll_keeps (P := fun v => s.faults &&& v.faults = s.faults) keep hu BitVec.and_self
      exact .inl kept

/-- Settles O49: a frame instruction's payload and an ENCODE request's are held to R13 alike. -/
theorem longPayloadsAreRefused : Obligations.LongPayloadsAreRefused := by
  refine ⟨fun s i way c p hl hf => ?_, fun s c p rest hl hp => step_encode_long hl hp⟩
  exact (exec_frame hf).trans (frameOp_of_long c way hl s)

/-- Settles O34: the inversion lemmas of the three units and of `faults`, put together. -/
theorem operationsTouchOnlyTheirOwnUnit : Obligations.OperationsTouchOnlyTheirOwnUnit := by
  intro s i hi
  obtain ⟨t, _, ht, _⟩ := exec_host_next hi s
  obtain ⟨hcfg, hport, htx, hrx⟩ := exec_host_units hi ht
  have hfaults : i = .reset ∨ t.faults = s.faults ∨ ∃ f, t.faults = s.faults ||| faultBit f :=
    (exec_host_faults hi ht).imp_left And.left
  refine ⟨t, ht, hcfg, hport, htx, fun hw => (hrx hw).1, hfaults, fun k hk => ?_⟩
  rcases exec_host_rx hi ht with ⟨_, _, hpay⟩ | ⟨b, rfl, _, hpay⟩ | ⟨_, _, hpay⟩
  · rw [hpay]
  · rw [hpay, payRead_rxStore_of_not fun h => hk ⟨b, rfl, h⟩]
  · rw [hpay]

/-- Settles O25: an operation that writes no RX register leaves all that the verdict and the frame
are read from. -/
theorem theDecodedFrameIsStable : Obligations.TheDecodedFrameIsStable := by
  intro s t i hi hw hv ht
  obtain ⟨hcfg, _, _, hkeep⟩ := exec_host_units hi ht
  obtain ⟨hrx, hpay⟩ := hkeep hw
  have hvt : verdict t = verdict s := by rw [verdict, hcfg, hrx, verdict]
  exact ⟨hvt.trans hv, by rw [hrx], by rw [hrx], by rw [hrx], fun k => by rw [hpay]⟩

end Sys2Proof.Machine
end

section
/-! SUPPORT and PROOFS. The stored cells over a push, the invariant of R12 and R16 over every step,
and the noninterference of R24 as a relation that every host operation keeps. -/

namespace Sys2Proof.Machine

/-! ## What a push adds to the stored cells -/

/-- The head of a run stores nothing. -/
theorem rxStored_eq_zero {rx : Rx} (h : rx.count.toNat ≤ 5) : rxStored rx = 0 := by
  rw [rxStored]
  omega

/-- Beyond the head a push leaves the length alone. -/
theorem rxNext_len_of_five_le (cfg : Config) {rx : Rx} (b : Byte) (h : 5 ≤ rx.count.toNat) :
    (rxNext cfg rx b).len = rx.len := by
  rw [rxNext_len, if_neg (by omega), if_neg (by omega)]

/-- A push in phase PAYLOAD stores one cell more. -/
theorem rxStored_rxNext_payload (cfg : Config) {rx : Rx} (b : Byte) (h : 5 ≤ rx.count.toNat)
    (hp : rx.count.toNat < 5 + rx.len.toNat) :
    rxStored rx = rx.count.toNat - 5 ∧ rxStored (rxNext cfg rx b) = rx.count.toNat - 5 + 1 := by
  have := rx.len.isLt
  rw [rxStored, rxStored, rxNext_len_of_five_le cfg b h, rxNext_count]
  omega

/-- A push outside phase PAYLOAD stores no cell more, saturated count or not. -/
theorem rxStored_rxNext_other (cfg : Config) {rx : Rx} (b : Byte)
    (hp : ¬ (5 ≤ rx.count.toNat ∧ rx.count.toNat < 5 + rx.len.toNat)) :
    rxStored (rxNext cfg rx b) = rxStored rx := by
  by_cases h : 5 ≤ rx.count.toNat
  · have := rx.len.isLt
    rw [rxStored, rxStored, rxNext_len_of_five_le cfg b h, rxNext_count]
    omega
  · rw [rxStored_eq_zero, rxStored_eq_zero (by omega)]
    rw [rxNext_count]
    omega

/-- A cell stored after a push was stored before it or is the one the push writes. -/
theorem lt_rxStored_rxNext {cfg : Config} {rx : Rx} {b : Byte} {k : Nat}
    (hk : k < rxStored (rxNext cfg rx b)) : k < rxStored rx ∨
      (5 ≤ rx.count.toNat ∧ rx.count.toNat < 5 + rx.len.toNat ∧ k = rx.count.toNat - 5) := by
  by_cases hp : 5 ≤ rx.count.toNat ∧ rx.count.toNat < 5 + rx.len.toNat
  · obtain ⟨h, h'⟩ := rxStored_rxNext_payload cfg b hp.1 hp.2
    omega
  · exact .inl (rxStored_rxNext_other cfg b hp ▸ hk)

/-! ## The invariant -/

theorem Tx.inv_cleared : Tx.Inv Tx.cleared := ⟨fun _ => rfl, fun _ => by simp [Tx.cleared]⟩

theorem Tx.inv_begin (c : Byte) (l : Half) :
    Tx.Inv { active := true, idx := 0, cmd := c, len := l, sum := 0 } :=
  ⟨fun _ => rfl, fun _ => by simp⟩

/-- The index stays within the frame, and the trailer's step leads back to 0 (R12, R93). -/
theorem Tx.Inv.advance {tx : Tx} (h : Tx.Inv tx) (ha : tx.active = true) (out : Byte) :
    Tx.Inv (txAdvance tx out) := by
  have hb := h.busy ha
  have := tx.len.isLt
  by_cases hl : tx.idx.toNat = 6 + tx.len.toNat
  · have hlast : txLast tx = true := by simp [txLast, hl]
    constructor <;> simp [txAdvance, hlast]
  · have hlast : txLast tx = false := by simp [txLast, hl]
    constructor
    · simp [txAdvance, hlast, ha]
    · have hi : (tx.idx + 1).toNat = tx.idx.toNat + 1 := by
        rw [BitVec.toNat_add]
        simp
        omega
      simp only [txAdvance, hlast, Bool.false_eq_true, if_false, hi]
      omega

theorem Tx.Inv.of_exec {i : Instr} (hi : i.isHostOp = true) {s t : State} (h : exec i s = .next t)
    (hs : Tx.Inv s.tx) : Tx.Inv t.tx := by
  rcases exec_host_tx hi h with e | e | ⟨c, l, e⟩ | ⟨ha, out, e⟩ <;> rw [e]
  · exact hs
  · exact Tx.inv_cleared
  · exact Tx.inv_begin c l
  · exact hs.advance ha out

theorem rxNext_count_ne_zero (cfg : Config) (rx : Rx) (b : Byte) :
    (rxNext cfg rx b).count.toNat ≠ 0 := by
  rw [rxNext_count]
  omega

theorem Rx.inv_cleared (m : Memory) : Rx.Inv Rx.cleared m where
  empty _ := rfl
  typeUnset _ := rfl
  cmdUnset _ := rfl
  lenUnset _ := rfl
  lenLowUnset _ := rfl
  sum := rfl
  written k hk := absurd hk (by rw [rxStored_eq_zero (by decide)]; omega)

/-- The payload bytes in the stored cells, after a push in phase PAYLOAD. -/
theorem rxStored_bytes_payload (cfg : Config) {rx : Rx} (b : Byte) (m : Memory)
    (h : 5 ≤ rx.count.toNat) (hp : rx.count.toNat < 5 + rx.len.toNat) :
    (List.range (rxStored (rxNext cfg rx b))).map (payRead (rxStore rx b m)) =
      (List.range (rxStored rx)).map (payRead m) ++ [b] := by
  obtain ⟨hs, hs'⟩ := rxStored_rxNext_payload cfg b h hp
  rw [hs, hs', List.range_succ, List.map_append]
  congr 1
  · refine List.map_congr_left fun k hk => payRead_rxStore_of_not ?_
    have := List.mem_range.1 hk
    omega
  · rw [List.map_singleton, payRead, rxStore_get, if_pos ⟨h, hp, rfl⟩, Option.getD_some]

/-- The same after a push outside phase PAYLOAD. -/
theorem rxStored_bytes_other (cfg : Config) {rx : Rx} (b : Byte) (m : Memory)
    (hp : ¬ (5 ≤ rx.count.toNat ∧ rx.count.toNat < 5 + rx.len.toNat)) :
    (List.range (rxStored (rxNext cfg rx b))).map (payRead (rxStore rx b m)) =
      (List.range (rxStored rx)).map (payRead m) := by
  rw [rxStored_rxNext_other cfg b hp]
  exact List.map_congr_left fun k _ => payRead_rxStore_of_not fun h => hp ⟨h.1, h.2.1⟩

/-- In the head of a run the summed bytes are head bytes. -/
theorem rxSummed_head {rx : Rx} (m : Memory) (h : rx.count.toNat ≤ 5) :
    rxSummed rx m = [rx.type, rx.cmd, hi8 rx.len, lo8 rx.len].take (rx.count.toNat - 1) := by
  rw [rxSummed, rxStored_eq_zero h]
  exact List.append_nil _

/-- Beyond it they are all four head bytes and the stored ones. -/
theorem rxSummed_of_five_le {rx : Rx} (m : Memory) (h : 5 ≤ rx.count.toNat) :
    rxSummed rx m = [rx.type, rx.cmd, hi8 rx.len, lo8 rx.len] ++
      (List.range (rxStored rx)).map (payRead m) := by
  rw [rxSummed, List.take_of_length_le]
  simp
  omega

/-- `rx_sum` stays the sum of the summed bytes over a push in the head. -/
theorem rxNext_sum_head (cfg : Config) {rx : Rx} (b : Byte) {m : Memory} (hi : Rx.Inv rx m)
    (h : rx.count.toNat ≤ 4) :
    (rxNext cfg rx b).sum = sum8 (rxSummed (rxNext cfg rx b) (rxStore rx b m)) := by
  have hsum := hi.sum
  have hcount : (rxNext cfg rx b).count.toNat = rx.count.toNat + 1 := by
    rw [rxNext_count]
    omega
  rw [rxSummed_head m (by omega)] at hsum
  rw [rxSummed_head _ (by omega), hcount, rxNext_sum, hsum, rxNext_type, rxNext_cmd, rxNext_len]
  interval_cases hn : rx.count.toNat <;> simp [sum8, BitVec.add_assoc]

/-- And over a push beyond the head, in phase PAYLOAD or not. -/
theorem rxNext_sum_of_five_le (cfg : Config) {rx : Rx} (b : Byte) {m : Memory} (hi : Rx.Inv rx m)
    (h : 5 ≤ rx.count.toNat) :
    (rxNext cfg rx b).sum = sum8 (rxSummed (rxNext cfg rx b) (rxStore rx b m)) := by
  have hsum := hi.sum
  have hcount : 5 ≤ (rxNext cfg rx b).count.toNat := by
    rw [rxNext_count]
    omega
  have htype : (rxNext cfg rx b).type = rx.type := by rw [rxNext_type, if_neg (by omega)]
  have hcmd : (rxNext cfg rx b).cmd = rx.cmd := by rw [rxNext_cmd, if_neg (by omega)]
  rw [rxSummed_of_five_le m h] at hsum
  rw [rxSummed_of_five_le _ hcount, rxNext_len_of_five_le cfg b h, htype, hcmd, rxNext_sum,
    if_neg (by omega), if_neg (by omega)]
  by_cases hp : rx.count.toNat < 5 + rx.len.toNat
  · rw [if_pos (.inr hp), rxStored_bytes_payload cfg b m h hp, ← List.append_assoc, sum8_append,
      ← hsum]
    simp [sum8]
  · rw [if_neg (by omega), rxStored_bytes_other cfg b m (fun g => hp g.2), hsum]

/-- A push keeps the invariant of the RX unit (R16, R121). -/
theorem Rx.Inv.push {rx : Rx} {m : Memory} (h : Rx.Inv rx m) (cfg : Config) (b : Byte) :
    Rx.Inv (rxNext cfg rx b) (rxStore rx b m) where
  empty h0 := absurd h0 (rxNext_count_ne_zero cfg rx b)
  typeUnset hc := by
    rw [rxNext_count] at hc
    rw [rxNext_type, if_neg (by omega), h.typeUnset (by omega)]
  cmdUnset hc := by
    rw [rxNext_count] at hc
    rw [rxNext_cmd, if_neg (by omega), h.cmdUnset (by omega)]
  lenUnset hc := by
    rw [rxNext_count] at hc
    rw [rxNext_len, if_neg (by omega), if_neg (by omega), h.lenUnset (by omega)]
  lenLowUnset hc := by
    rw [rxNext_count] at hc
    have hlow := h.lenLowUnset (by omega)
    rw [rxNext_len, if_neg (c := rx.count.toNat = 4) (by omega)]
    split_ifs
    · rw [lo8_append, hlow]
    · exact hlow
  sum := by
    by_cases hc : rx.count.toNat ≤ 4
    · exact rxNext_sum_head cfg b h hc
    · exact rxNext_sum_of_five_le cfg b h (by omega)
  written k hk := by
    rw [rxStore_get]
    split_ifs with hp
    · exact Option.some_ne_none b
    · exact h.written k ((lt_rxStored_rxNext hk).resolve_right hp)

theorem Rx.Inv.of_exec {i : Instr} (hi : i.isHostOp = true) {s t : State} (h : exec i s = .next t)
    (hs : Rx.Inv s.rx s.pay) : Rx.Inv t.rx t.pay := by
  rcases exec_host_rx hi h with ⟨_, hrx, hpay⟩ | ⟨b, _, hrx, hpay⟩ | ⟨_, hrx, hpay⟩ <;>
    rw [hrx, hpay]
  · exact hs
  · exact hs.push s.cfg b
  · exact Rx.inv_cleared s.pay

theorem exec_host_pay_wf {i : Instr} (hi : i.isHostOp = true) {s t : State}
    (h : exec i s = .next t) (hs : Memory.wf s.pay) : Memory.wf t.pay := by
  rcases exec_host_rx hi h with ⟨_, _, hpay⟩ | ⟨b, _, _, hpay⟩ | ⟨_, _, hpay⟩ <;> rw [hpay]
  · exact hs
  · exact rxStore_wf s.rx b hs
  · exact hs

theorem State.Inv.of_exec {i : Instr} (hi : i.isHostOp = true) {s t : State}
    (h : exec i s = .next t) (hs : s.Inv) : t.Inv where
  cfg := by
    rw [(exec_host_units hi h).1]
    exact hs.cfg
  pay := exec_host_pay_wf hi h hs.pay
  tx := hs.tx.of_exec hi h
  rx := hs.rx.of_exec hi h

/-- Settles O54: each host operation keeps the invariant, and neither port nor answers enter it. -/
theorem everyStepKeepsTheInvariant : Obligations.EveryStepKeepsTheInvariant := fun _ _ hs h =>
  step_keeps (fun _ _ ⟨hcfg, hpay, htx, hrx⟩ => ⟨hcfg, hpay, htx, hrx⟩)
    (fun _ _ ⟨hcfg, hpay, htx, hrx⟩ => ⟨hcfg, hpay, htx, hrx⟩)
    (fun _ _ _ hi hx hu => hu.of_exec hi hx) h hs

/-! ## Memories that agree on the stored cells -/

/-- `m` agrees with the state's `rx_pay` on the cells that the present run has stored (R24). -/
def AgreesOnRun (s : State) (m : Memory) : Prop :=
  ∀ k, k < rxStored s.rx → payGet? m k = payGet? s.pay k

/-- With verdict Ok the whole payload is stored (R120). -/
theorem rxStored_of_verdict_ok {s : State} (h : verdict s = none) :
    rxStored s.rx = s.rx.len.toNat := by
  simp only [verdict, decodeErrorOf] at h
  split_ifs at h
  rw [rxStored]
  omega

/-- RXGET reads stored cells only (R125). -/
theorem rxGet_agrees {s : State} {m : Memory} (h : AgreesOnRun s m) (k : Half) :
    rxGet k { s with pay := m } = { rxGet k s with pay := m } := by
  have hverdict : verdict { s with pay := m } = verdict s := rfl
  by_cases hv : verdict s = none
  · by_cases hk : k.toNat < s.rx.len.toNat
    · have hread : payRead m k.toNat = payRead s.pay k.toNat := by
        rw [payRead, payRead, h k.toNat (by rwa [rxStored_of_verdict_ok hv])]
      simp only [rxGet, hverdict, if_pos hv, if_pos hk, hread]
      rfl
    · simp only [rxGet, hverdict, if_pos hv, if_neg hk]
      rfl
  · simp only [rxGet, hverdict, if_neg hv]
    rfl

/-- A host operation that writes no RX register reads no other cell than a stored one, and leaves
the other memory as it left the state's own. -/
theorem exec_agrees_of_reads {i : Instr} (hi : i.isHostOp = true) (hw : i.writesRx = false)
    {s t : State} (h : exec i s = .next t) {m : Memory} (hm : AgreesOnRun s m) :
    exec i { s with pay := m } = .next { t with pay := m } := by
  cases i <;> simp only [Instr.isHostOp, Instr.writesRx, reduceCtorEq] at hi hw <;> cases h
  case txbegin c l => cases ha : s.tx.active <;> simp [exec, execTxbegin, txBegin, ha] <;> rfl
  case txstep d => cases ha : s.tx.active <;> simp [exec, execTxstep, txStep, ha] <;> rfl
  case rxhdr =>
    have hverdict : verdict { s with pay := m } = verdict s := rfl
    by_cases hv : verdict s = none <;> simp [exec, execRxhdr, rxHdr, hverdict, hv] <;> rfl
  case rxget k => exact congrArg Host.Outcome.next (rxGet_agrees hm k)
  all_goals rfl

/-- Two states that differ only in cells not stored answer a host operation alike, and differ only
there again (R24). -/
theorem exec_agrees {i : Instr} (hi : i.isHostOp = true) {s t : State}
    (h : exec i s = .next t) {m : Memory} (hm : AgreesOnRun s m) :
    ∃ m', exec i { s with pay := m } = .next { t with pay := m' } ∧ AgreesOnRun t m' := by
  rcases exec_host_rx hi h with ⟨hw, hrx, hpay⟩ | ⟨b, rfl, hrx, hpay⟩ | ⟨hc, hrx, _⟩
  · refine ⟨m, exec_agrees_of_reads hi hw h hm, ?_⟩
    rwa [AgreesOnRun, hrx, hpay]
  · cases h
    refine ⟨rxStore s.rx b m, rfl, fun k hk => ?_⟩
    rw [hpay, rxStore_get, rxStore_get]
    split_ifs with hp
    · rfl
    · exact hm k ((lt_rxStored_rxNext hk).resolve_right hp)
  · have hnone : AgreesOnRun t m := fun k hk => by
      rw [hrx, rxStored_eq_zero (by decide)] at hk
      omega
    rcases hc with rfl | rfl <;> cases h <;> exact ⟨m, rfl, hnone⟩

/-- The same for a sequence of host operations. -/
theorem issueAll_agrees : ∀ {ops : List Instr} {s t : State} {as : List Answer} {m : Memory},
    (∀ i ∈ ops, i.isHostOp = true) → issueAll ops s = some (t, as) → AgreesOnRun s m →
    ∃ m', issueAll ops { s with pay := m } = some ({ t with pay := m' }, as) ∧ AgreesOnRun t m'
  | [], s, t, as, m, _, h, hm => by
    cases h
    exact ⟨m, rfl, hm⟩
  | i :: is, s, t, as, m, hi, h, hm => by
    obtain ⟨u, bs, hx, hr, rfl⟩ := issueAll_cons_inv h
    obtain ⟨m₁, hx₁, hm₁⟩ := exec_agrees (hi i List.mem_cons_self) hx hm
    obtain ⟨m₂, hr₂, hm₂⟩ := issueAll_agrees (fun j hj => hi j (List.mem_cons_of_mem _ hj)) hr hm₁
    exact ⟨m₂, issueAll_cons (u := { u with pay := m₁ }) hx₁ hr₂, hm₂⟩

/-- Settles O26: the operations a request expands to do not depend on `rx_pay`, and each of them
keeps the agreement on the stored cells. -/
theorem unwrittenPayloadIsUnobservable : Obligations.UnwrittenPayloadIsUnobservable := by
  intro s m hm
  refine ⟨fun t ht => ?_, fun r hr => ?_⟩
  · rcases step_issues ht with ⟨hp, rfl⟩ | ⟨r, rest, ops, u, as, hp, hx, hu, rfl⟩
    · exact ⟨m, step_idle hp, hm⟩
    · obtain ⟨m', hu', hm'⟩ := issueAll_agrees (m := m) hx.host hu hm
      obtain ⟨v, bs, hv, hs⟩ := hx.step { s with pay := m } rest rfl hp
      cases hv.symm.trans hu'
      exact ⟨m', hs, hm'⟩
  · obtain ⟨q, rest, hp, hrefuse⟩ := step_refuses hr
    exact hrefuse { s with pay := m } rfl hp
end Sys2Proof.Machine
end

section
/-! SUPPORT and PROOFS. The RX registers over a run of any length (R16): an invariant that says what
they hold of the run so far, carried through any interleaving. -/

namespace Sys2Proof.Machine

/-! ## The registers hold the run -/

/-- The bytes of a run with one byte more. -/
theorem getD_concat (b : List Byte) (x : Byte) (i : Nat) :
    (b ++ [x]).getD i 0 = if i = b.length then x else b.getD i 0 := by
  rcases lt_trichotomy i b.length with h | h | h
  · rw [List.getD_append _ _ _ _ h, if_neg (by omega)]
  · rw [List.getD_append_right _ _ _ _ h.ge, if_pos h, h, Nat.sub_self, List.getD_cons_zero]
  · rw [if_neg (by omega), List.getD_eq_default _ _ (by simp; omega),
      List.getD_eq_default _ _ (by omega)]

/-- What one byte more adds to the sum of at most `k` bytes behind the header. -/
theorem sum8_span_concat {b : List Byte} (x : Byte) (k : Nat) (h : b ≠ []) :
    sum8 (((b ++ [x]).drop 1).take k) =
      sum8 ((b.drop 1).take k) + if b.length ≤ k then x else 0 := by
  obtain ⟨y, b, rfl⟩ := List.exists_cons_of_ne_nil h
  simp only [List.cons_append, List.drop_succ_cons, List.drop_zero, List.length_cons]
  rw [List.take_append, sum8_append]
  congr 1
  split_ifs with hk
  · rw [List.take_of_length_le (by simp; omega), sum8, sum8]
    exact BitVec.add_zero x
  · rw [show k - b.length = 0 by omega, List.take_zero, sum8]

/-- The high length byte arrives at index 3 (R61, R121). -/
theorem hi8_rxNext_len (cfg : Config) (rx : Rx) (b : Byte) :
    hi8 (rxNext cfg rx b).len = if rx.count.toNat = 3 then b else hi8 rx.len := by
  rw [rxNext_len]
  split_ifs with h₃ h₄
  · exact hi8_append b _
  · exact hi8_append _ b
  · rfl

/-- The low length byte arrives at index 4 (R61, R121). -/
theorem lo8_rxNext_len (cfg : Config) (rx : Rx) (b : Byte) :
    lo8 (rxNext cfg rx b).len = if rx.count.toNat = 4 then b else lo8 rx.len := by
  rw [rxNext_len]
  split_ifs with h₃ h₄ h₄
  · omega
  · exact lo8_append b _
  · exact lo8_append _ b
  · rfl

/-- The RX registers and `rx_pay` hold the run `b` pushed since they were cleared: R16, with the
registers' own `rx_len`, which makes the clauses on sum, cells and checksum hold at every length. -/
structure HoldsRun (cfg : Config) (b : List Byte) (rx : Rx) (m : Memory) : Prop where
  count : rx.count.toNat = min b.length 131071
  hdrOk : 1 ≤ b.length → rx.hdrOk = decide (b.getD 0 0 = cfg.header)
  last : 1 ≤ b.length → rx.last = b.getD (b.length - 1) 0
  type : 2 ≤ b.length → rx.type = b.getD 1 0
  cmd : 3 ≤ b.length → rx.cmd = b.getD 2 0
  lenHi : 4 ≤ b.length → hi8 rx.len = b.getD 3 0
  lenLo : 5 ≤ b.length → lo8 rx.len = b.getD 4 0
  sum : rx.sum = sum8 ((b.drop 1).take (4 + rx.len.toNat))
  stored : ∀ k, k < rxStored rx → payGet? m k = some (b.getD (5 + k) 0)
  ck : 6 + rx.len.toNat ≤ b.length → rx.ck = b.getD (5 + rx.len.toNat) 0

/-- Cleared registers hold the empty run (R15, R122). -/
theorem HoldsRun.nil (cfg : Config) (m : Memory) : HoldsRun cfg [] Rx.cleared m where
  count := rfl
  hdrOk h := absurd h (by decide)
  last h := absurd h (by decide)
  type h := absurd h (by decide)
  cmd h := absurd h (by decide)
  lenHi h := absurd h (by decide)
  lenLo h := absurd h (by decide)
  sum := rfl
  stored k hk := absurd hk (by rw [rxStored_eq_zero (by decide)]; omega)
  ck h := absurd h (by simp)

section push
variable {cfg : Config} {b : List Byte} {rx : Rx} {m : Memory} (h : HoldsRun cfg b rx m) (x : Byte)
include h

/-- The next byte of the run is byte `i` exactly if `rx_count` says so. -/
theorem HoldsRun.count_eq_iff {i : Nat} (hi : i < 131071) : rx.count.toNat = i ↔ i = b.length := by
  rw [h.count]
  omega

/-- `rx_sum` takes the run's bytes up to index 4 + `rx_len` (R15, R121). -/
theorem HoldsRun.push_sum : (rxNext cfg rx x).sum =
    sum8 (((b ++ [x]).drop 1).take (4 + (rxNext cfg rx x).len.toNat)) := by
  have hcount := h.count
  have hsum := h.sum
  have := rx.len.isLt
  by_cases h0 : b = []
  · subst h0
    rw [rxNext_sum, if_pos (show rx.count.toNat = 0 from hcount), hsum]
    simp
  rw [sum8_span_concat x _ h0, rxNext_sum]
  have hpos := List.length_pos_iff.2 h0
  by_cases h1 : b.length = 1
  · rw [if_neg (by omega), if_pos (by omega), if_pos (by omega),
      List.drop_eq_nil_of_le h1.le, List.take_nil, sum8]
    exact (BitVec.zero_add x).symm
  rw [if_neg (by omega), if_neg (by omega)]
  by_cases h5 : b.length < 5
  · have hall : ∀ k, (b.drop 1).take (4 + k) = b.drop 1 := fun k =>
      List.take_of_length_le (by rw [List.length_drop]; omega)
    rw [if_pos (by omega), if_pos (by omega), hsum, hall, hall]
  · rw [rxNext_len_of_five_le cfg x (by omega), hsum]
    by_cases hl : b.length ≤ 4 + rx.len.toNat
    · rw [if_pos (by omega), if_pos hl]
    · rw [if_neg (by omega), if_neg hl]
      exact (BitVec.add_zero _).symm

/-- A push makes the registers hold the run with its byte (R121). -/
theorem HoldsRun.push : HoldsRun cfg (b ++ [x]) (rxNext cfg rx x) (rxStore rx x m) where
  count := by
    rw [rxNext_count, h.count, List.length_append, List.length_singleton]
    omega
  hdrOk _ := by
    simp only [rxNext_hdrOk, h.count_eq_iff (i := 0) (by omega), getD_concat]
    split_ifs with h0
    · rfl
    · exact h.hdrOk (by omega)
  last _ := by
    rw [rxNext_last, getD_concat, if_pos (by simp)]
  type hb := by
    rw [List.length_append, List.length_singleton] at hb
    simp only [rxNext_type, h.count_eq_iff (i := 1) (by omega), getD_concat]
    split_ifs with h1
    · rfl
    · exact h.type (by omega)
  cmd hb := by
    rw [List.length_append, List.length_singleton] at hb
    simp only [rxNext_cmd, h.count_eq_iff (i := 2) (by omega), getD_concat]
    split_ifs with h2
    · rfl
    · exact h.cmd (by omega)
  lenHi hb := by
    rw [List.length_append, List.length_singleton] at hb
    simp only [hi8_rxNext_len, h.count_eq_iff (i := 3) (by omega), getD_concat]
    split_ifs with h3
    · rfl
    · exact h.lenHi (by omega)
  lenLo hb := by
    rw [List.length_append, List.length_singleton] at hb
    simp only [lo8_rxNext_len, h.count_eq_iff (i := 4) (by omega), getD_concat]
    split_ifs with h4
    · rfl
    · exact h.lenLo (by omega)
  sum := h.push_sum x
  stored k hk := by
    have hcount := h.count
    have := rx.len.isLt
    rw [rxStore_get, getD_concat]
    split_ifs with hp he he
    · rfl
    · omega
    · have hs := (lt_rxStored_rxNext hk).resolve_right hp
      rw [rxStored] at hs
      omega
    · exact h.stored k ((lt_rxStored_rxNext hk).resolve_right hp)
  ck hb := by
    have hcount := h.count
    have := rx.len.isLt
    rw [List.length_append, List.length_singleton] at hb
    rw [rxNext_len_of_five_le cfg x (by omega)] at hb ⊢
    rw [rxNext_ck, getD_concat]
    by_cases he : 5 + rx.len.toNat = b.length
    · rw [if_pos (by omega), if_pos he]
    · rw [if_neg (by omega), if_neg he]
      exact h.ck (by omega)

end push

/-- From registers that hold `b`, operations that push the bytes `c` and write no RX register
otherwise lead to registers that hold `b ++ c`. -/
theorem HoldsRun.issueAll {cfg : Config} : ∀ {ops : List Instr} {s t : State} {as : List Answer}
    {b c : List Byte}, (∀ i ∈ ops, i.isHostOp = true) →
    ops.filter Instr.writesRx = c.map .rxpush → s.cfg = cfg → HoldsRun cfg b s.rx s.pay →
    issueAll ops s = some (t, as) → HoldsRun cfg (b ++ c) t.rx t.pay
  | [], s, t, as, b, c, _, hf, _, h, ht => by
    obtain rfl : c = [] := List.map_eq_nil_iff.1 hf.symm
    cases ht
    rwa [List.append_nil]
  | i :: is, s, t, as, b, c, hi, hf, hc, h, ht => by
    have hi₀ := hi i List.mem_cons_self
    have his : ∀ j ∈ is, j.isHostOp = true := fun j hj => hi j (List.mem_cons_of_mem _ hj)
    obtain ⟨u, bs, hx, hr, rfl⟩ := issueAll_cons_inv ht
    have hcu : u.cfg = cfg := (exec_host_units hi₀ hx).1.trans hc
    rcases exec_host_rx hi₀ hx with ⟨hw, hrx, hpay⟩ | ⟨x, rfl, hrx, hpay⟩ | ⟨hclear, _⟩
    · rw [List.filter_cons_of_neg (by simp [hw])] at hf
      exact HoldsRun.issueAll his hf hcu (by rwa [hrx, hpay]) hr
    · rw [List.filter_cons_of_pos rfl] at hf
      obtain ⟨y, c, rfl, hy, hf'⟩ := List.map_eq_cons_iff.1 hf.symm
      cases hy
      rw [List.append_cons]
      refine HoldsRun.issueAll his hf'.symm hcu ?_ hr
      rw [hrx, hpay, hc]
      exact h.push x
    · have hw : i.writesRx = true := by rcases hclear with rfl | rfl <;> rfl
      rw [List.filter_cons_of_pos hw] at hf
      obtain ⟨y, _, _, hy, _⟩ := List.map_eq_cons_iff.1 hf.symm
      rcases hclear with rfl | rfl <;> cases hy

/-- After RXCLR or RESET and the pushes of `b`, from any state, the registers hold `b`. -/
theorem holdsRun_of_issueAll {cfg : Config} : ∀ {ops : List Instr} {s t : State}
    {as : List Answer} {first : Instr} {b : List Byte}, (∀ i ∈ ops, i.isHostOp = true) →
    first = .rxclr ∨ first = .reset → ops.filter Instr.writesRx = first :: b.map .rxpush →
    s.cfg = cfg → issueAll ops s = some (t, as) → HoldsRun cfg b t.rx t.pay
  | [], _, _, _, _, _, _, _, hf, _, _ => by cases hf
  | i :: is, s, t, as, first, b, hi, hfirst, hf, hc, ht => by
    have hi₀ := hi i List.mem_cons_self
    have his : ∀ j ∈ is, j.isHostOp = true := fun j hj => hi j (List.mem_cons_of_mem _ hj)
    obtain ⟨u, bs, hx, hr, rfl⟩ := issueAll_cons_inv ht
    have hcu : u.cfg = cfg := (exec_host_units hi₀ hx).1.trans hc
    rcases exec_host_rx hi₀ hx with ⟨hw, _, _⟩ | ⟨x, rfl, _, _⟩ | ⟨hclear, hrx, _⟩
    · rw [List.filter_cons_of_neg (by simp [hw])] at hf
      exact holdsRun_of_issueAll his hfirst hf hcu hr
    · rw [List.filter_cons_of_pos rfl] at hf
      rcases hfirst with rfl | rfl <;> cases hf
    · have hw : i.writesRx = true := by rcases hclear with rfl | rfl <;> rfl
      rw [List.filter_cons_of_pos hw] at hf
      refine HoldsRun.issueAll (b := []) his (List.cons.inj hf).2 hcu ?_ hr
      rw [hrx]
      exact HoldsRun.nil cfg _

/-- Once the head is there, `rx_len` is the length that the run declares (R61). -/
theorem HoldsRun.len {cfg : Config} {b : List Byte} {rx : Rx} {m : Memory}
    (h : HoldsRun cfg b rx m) (h5 : 5 ≤ b.length) :
    rx.len.toNat = be16 (b.getD 3 0) (b.getD 4 0) := by
  rw [← be16_hi8_lo8, h.lenHi (by omega), h.lenLo h5]

/-- Settles O22: the operations between the pushes keep what holds of the run, and each push adds
its byte. -/
theorem rxRegistersHoldTheRun : Obligations.RxRegistersHoldTheRun := by
  intro s ops first b hi hfirst hf n len
  obtain ⟨t, as, ht, _⟩ := issueAll_host ops s hi
  have h := holdsRun_of_issueAll hi hfirst hf rfl ht
  have hlen : 5 ≤ n → t.rx.len.toNat = len := h.len
  have hcount : t.rx.count.toNat = min n 131071 := h.count
  refine ⟨t, as, ht, hcount, fun hn => ⟨h.hdrOk hn, h.last hn⟩, h.type, h.cmd, fun hn => ?_,
    fun hn hn' => ?_⟩
  · refine ⟨hlen hn, ?_, fun k hk => ?_⟩
    · rw [h.sum, hlen hn, ← List.take_take, List.take_of_length_le (i := n - 1)]
      rw [List.length_take, List.length_drop]
      exact min_le_right _ _
    · have hstored : k < rxStored t.rx := by
        have := t.rx.len.isLt
        rw [rxStored, hcount]
        rw [← hlen hn] at hk
        omega
      rw [payRead, h.stored k hstored, Option.getD_some]
  · have hck := h.ck (by rw [hlen hn]; exact hn')
    rwa [hlen hn] at hck

end Sys2Proof.Machine
end

section
/-! SUPPORT and PROOFS. Decoding gives back what the encoder writes (R64, R75), which makes a step
run the instruction its request spells; and the independence of the units (R52), from which the
statements of 20_memory.md on single operations follow. -/

namespace Sys2Proof

/-! ## Command words -/

@[simp] theorem lo8_byteOperand (b : Byte) : lo8 (byteOperand b) = b := lo8_append 0 b

@[simp] theorem lo8_rssiOperand (v : BitVec 2) (raw : Byte) : lo8 (rssiOperand v raw) = raw :=
  lo8_append _ raw

@[simp] theorem curveField_rssiOperand (op : BitVec 4) (cmd : Byte) (v : BitVec 2) (raw : Byte) :
    curveField (hostWord op cmd (rssiOperand v raw)) = v := by
  apply BitVec.eq_of_toNat_eq
  have := raw.isLt
  have := v.isLt
  rw [curveField_hostWord, rssiOperand_toNat]
  omega

@[simp] theorem curveOfSelect_select (c : Curve) : curveOfSelect c.select = some c := by
  cases c <;> rfl

/-- The command word of a host operation decodes to that operation (R75, R77, R78). -/
theorem decodeRequest_encodeRequest_host (cfg : Config) {i : Instr} (hi : i.isHostOp = true) :
    decodeRequest cfg (encodeRequest cfg i) = .ok i := by
  cases i <;> simp only [Instr.isHostOp, Bool.false_eq_true] at hi
  case rssiCurve3 raw =>
    have hsel : curveOfSelect 3#2 = none := rfl
    simp [encodeRequest, decodeRequest, decodeWord, byteField_hostWord, hsel]
  all_goals simp [encodeRequest, decodeRequest, decodeWord, byteField_hostWord]

/-! ## Frames -/

/-- `Decode` of a frame's bytes gives the frame back (R64, R114). -/
theorem frameDecode_frameBytes (cfg : Config) (t c : Byte) {p : List Byte}
    (hp : p.length ≤ maxPayload) :
    frameDecode cfg (frameBytes cfg t c p) = .ok { type := t, command := c, payload := p } := by
  obtain ⟨hheader, htype, hcmd, hhi, hlo⟩ := frameBytes_head cfg t c p
  have hlen := be16_payload_length hp
  have htrailer : (frameBytes cfg t c p).getD (p.length + 7 - 1) 0 = cfg.trailer := by
    rw [show p.length + 7 - 1 = 6 + p.length by omega, frameBytes_trailer]
  have hpayload : ((frameBytes cfg t c p).drop 5).take p.length = p := by
    simp [frameBytes, frameSpan]
  simp only [frameDecode, frameBytes_length, hheader, htype, hcmd, hhi, hlo, hlen, htrailer,
    frameBytes_span, frameBytes_checksum, hpayload]
  rw [if_neg (by omega), if_neg (not_not_intro rfl), if_neg (by omega), if_neg (by omega),
    if_neg (not_not_intro rfl), if_neg (not_not_intro rfl), if_neg (not_not_intro rfl)]

/-- The request that carries a frame decodes to the instruction named by its command byte. -/
theorem decodeRequest_frameRequest (cfg : Config) (way : Way) (c : Byte) {p : List Byte}
    (hp : p.length ≤ maxPayload) :
    decodeRequest cfg (frameRequest cfg way c p) = .ok (nameFrame cfg way c p) := by
  cases way with
  | sent => exact if_pos hp
  | received t => rw [frameRequest, decodeRequest, frameDecode_frameBytes cfg t c hp]

/-- A well-formed frame instruction has a payload that fits, and is the one that its command byte
names: the seven codes are distinct, and `frameOther` carries none of them (R4, R70, R71). -/
theorem nameFrame_frame? {cfg : Config} (hcfg : cfg.Valid) {i : Instr}
    (hi : i.wellFormed cfg = true) {way : Way} {c : Byte} {p : List Byte}
    (hf : i.frame? cfg = some (way, c, p)) :
    p.length ≤ maxPayload ∧ nameFrame cfg way c p = i := by
  have hdistinct : [cfg.cmdError, cfg.cmdWrite, cfg.cmdRead, cfg.cmdSelect, cfg.cmdStopMulti,
      cfg.cmdMultiPoll, cfg.cmdInventory].Nodup := List.nodup_reverse.2 hcfg.commandsDistinct
  simp only [List.nodup_cons, List.mem_cons, List.not_mem_nil, or_false, not_or] at hdistinct
  cases i <;> simp only [Instr.frame?, Option.some.injEq, Prod.mk.injEq, reduceCtorEq] at hf <;>
    obtain ⟨rfl, rfl, rfl⟩ := hf <;>
    simp_all [Instr.wellFormed, payloadFits, nameFrame, Config.commands]

/-- Decoding what the encoder writes for a well-formed instruction gives it back. -/
theorem decodeRequest_encodeRequest {cfg : Config} (hcfg : cfg.Valid) {i : Instr}
    (hi : i.wellFormed cfg = true) : decodeRequest cfg (encodeRequest cfg i) = .ok i := by
  rcases Machine.isHostOp_or_frame i cfg with hhost | ⟨way, c, p, hf⟩
  · exact decodeRequest_encodeRequest_host cfg hhost
  · obtain ⟨hp, rfl⟩ := nameFrame_frame? hcfg hi hf
    rw [encodeRequest_nameFrame, decodeRequest_frameRequest cfg way c hp]

namespace Machine

/-- Settles O6: the encoder's request is the case of a request that decodes, by decode of encode. -/
theorem stepRunsTheDecodedInstruction : Obligations.StepRunsTheDecodedInstruction := by
  have hrun : ∀ (s : State) (r : Request) (rest : List Request) (i : Instr),
      s.port = r :: rest → decodeRequest s.cfg r = .ok i →
      step s = exec i { s with port := rest } := fun s r rest i hp hd => by
    rw [step_request hp, hd]
  exact ⟨hrun, fun s i rest hcfg hi hp =>
    hrun s _ rest i hp (decodeRequest_encodeRequest hcfg hi), fun _ => step_idle⟩

/-! ## A transmit frame in progress -/

@[simp] theorem txAdvance_cmd (tx : Tx) (out : Byte) : (txAdvance tx out).cmd = tx.cmd := rfl
@[simp] theorem txAdvance_len (tx : Tx) (out : Byte) : (txAdvance tx out).len = tx.len := rfl

/-- Only the trailer's step ends a frame (R93). -/
theorem idx_eq_of_txAdvance_inactive {tx : Tx} {out : Byte} (ha : tx.active = true)
    (h : (txAdvance tx out).active = false) : tx.idx.toNat = 6 + tx.len.toNat := by
  simpa [txAdvance, ha, txLast] using h

/-- While a frame is in progress, TXSTEP goes one byte on, and every other host operation but RESET
leaves the TX registers alone (R54, R98). -/
theorem exec_busy_tx {i : Instr} (hi : i.isHostOp = true) (hr : i ≠ .reset) {s t : State}
    (ha : s.tx.active = true) (h : exec i s = .next t) :
    (∃ d out, i = .txstep d ∧ t.tx = txAdvance s.tx out) ∨
    ((¬ ∃ d, i = .txstep d) ∧ t.tx = s.tx) := by
  cases hd : i.drivesTx with
  | false =>
    obtain ⟨_, _, htx, _⟩ := exec_host_units hi h
    exact .inr ⟨fun ⟨d, e⟩ => by simp [e, Instr.drivesTx] at hd, htx hd hr⟩
  | true =>
    rcases drivesTx_eq_true hd with ⟨c, l, rfl⟩ | ⟨d, rfl⟩ <;> cases h
    · rcases txBegin_cases c l s with ⟨_, e⟩ | ⟨hidle, _⟩
      · exact .inr ⟨by simp, by rw [e, raise_tx]⟩
      · simp [ha] at hidle
    · rcases txStep_cases d s with ⟨hidle, _⟩ | ⟨_, e⟩
      · simp [ha] at hidle
      · exact .inl ⟨d, _, rfl, by rw [e, answer_tx]⟩

/-- Settles O13: the TX registers are as they were or one byte on, and a byte on keeps command and
length. -/
theorem aFrameInProgressIsNotDisturbed : Obligations.AFrameInProgressIsNotDisturbed := by
  intro s t i hi hr ha h
  rcases exec_busy_tx hi hr ha h with ⟨d, out, rfl, htx⟩ | ⟨hstep, htx⟩ <;> rw [htx]
  · exact ⟨rfl, rfl, fun hend => ⟨⟨d, rfl⟩, idx_eq_of_txAdvance_inactive ha hend⟩,
      fun hstep => absurd ⟨d, rfl⟩ hstep⟩
  · exact ⟨rfl, rfl, fun hend => by simp [ha] at hend, fun _ => rfl⟩

/-! ## The units are independent

An operation of a unit reads the configuration and its unit's part of the state, writes that part,
and ends with one outcome, which adds at most one bit to `faults` (R52). -/

/-- The fault bit that an outcome sets; none for a result word (R8, R190). -/
def answerBits : Answer → BitVec 5
  | .ok _ => 0
  | .fault f => faultBit f

/-- End an operation with outcome `a`: `answer` or `raise`, as the two lemmas below say. -/
def conclude (a : Answer) (s : State) : State :=
  { s with faults := s.faults ||| answerBits a, answers := [a] }

theorem conclude_ok (r : Word) (s : State) : conclude (.ok r) s = answer r s := by
  simp [conclude, answer, answerBits]

theorem conclude_fault (f : FaultFlag) (s : State) : conclude (.fault f) s = raise f s := rfl

/-- An outcome taken twice is taken once: the fault bit is sticky. -/
theorem conclude_conclude (a : Answer) (s : State) : conclude a (conclude a s) = conclude a s := by
  simp [conclude, BitVec.or_assoc]

/-- The order of two outcomes does not matter to `faults`. -/
theorem or_answerBits_comm (g : BitVec 5) (a b : Answer) :
    g ||| answerBits a ||| answerBits b = g ||| answerBits b ||| answerBits a := by
  rw [BitVec.or_assoc, BitVec.or_comm (answerBits a), ← BitVec.or_assoc]

/-- A TX operation reads the configuration and the TX registers, and writes the latter only. -/
theorem exec_tx_local {i : Instr} (hi : i.unit? = some .tx) (cfg : Config) (tx : Tx) :
    ∃ tx' a, ∀ u : State, u.cfg = cfg → u.tx = tx →
      exec i u = .next (conclude a { u with tx := tx' }) := by
  cases i <;> cases hi
  case txbegin c l =>
    cases ha : tx.active with
    | true =>
      refine ⟨tx, .fault .txBusy, ?_⟩
      rintro u rfl rfl
      exact congrArg Host.Outcome.next (if_pos ha)
    | false =>
      refine ⟨{ active := true, idx := 0, cmd := c, len := l, sum := 0 }, .ok 0, ?_⟩
      rintro u rfl rfl
      rw [conclude_ok]
      exact congrArg Host.Outcome.next (if_neg (by simp [ha]))
  case txstep d =>
    cases ha : tx.active with
    | true =>
      refine ⟨txAdvance tx (txOut cfg tx d), .ok (txstepWord (txOut cfg tx d) (txLast tx)), ?_⟩
      rintro u rfl rfl
      rw [conclude_ok]
      exact congrArg Host.Outcome.next (if_pos ha)
    | false =>
      refine ⟨tx, .fault .txIdle, ?_⟩
      rintro u rfl rfl
      exact congrArg Host.Outcome.next (if_neg (by simp [ha]))
  case txstat =>
    exact ⟨tx, .ok (txstatWord tx), by rintro u rfl rfl; rw [conclude_ok]; rfl⟩

/-- An RX operation reads the configuration, the RX registers and `rx_pay`, and writes the latter
two only. -/
theorem exec_rx_local {i : Instr} (hi : i.unit? = some .rx) (cfg : Config) (rx : Rx) (m : Memory) :
    ∃ rx' m' a, ∀ u : State, u.cfg = cfg → u.rx = rx → u.pay = m →
      exec i u = .next (conclude a { u with rx := rx', pay := m' }) := by
  cases i <;> cases hi
  case rxpush b =>
    exact ⟨rxNext cfg rx b, rxStore rx b m, .ok 0, by rintro u rfl rfl rfl; rw [conclude_ok]; rfl⟩
  case rxclr =>
    exact ⟨Rx.cleared, m, .ok 0, by rintro u rfl rfl rfl; rw [conclude_ok]; rfl⟩
  case rxstat =>
    exact ⟨rx, m, .ok (rxstatWord (decodeErrorOf cfg rx) rx.count), by
      rintro u rfl rfl rfl; rw [conclude_ok]; rfl⟩
  case rxhdr =>
    by_cases hv : decodeErrorOf cfg rx = none
    · refine ⟨rx, m, .ok (rxhdrWord rx), ?_⟩
      rintro u rfl rfl rfl
      rw [conclude_ok]
      exact congrArg Host.Outcome.next (if_pos hv)
    · refine ⟨rx, m, .fault .rxInvalid, ?_⟩
      rintro u rfl rfl rfl
      exact congrArg Host.Outcome.next (if_neg hv)
  case rxget k =>
    by_cases hv : decodeErrorOf cfg rx = none ∧ k.toNat < rx.len.toNat
    · refine ⟨rx, m, .ok (byteWord (payRead m k.toNat)), ?_⟩
      rintro u rfl rfl rfl
      rw [conclude_ok]
      exact congrArg Host.Outcome.next ((if_pos hv.1).trans (if_pos hv.2))
    · refine ⟨rx, m, .fault .rxInvalid, ?_⟩
      rintro u rfl rfl rfl
      rcases rxGet_cases k u with ⟨_, e⟩ | ⟨hok, hk, _⟩
      · exact congrArg Host.Outcome.next e
      · exact absurd ⟨hok, hk⟩ hv

/-- An operation of the RSSI unit reads the configuration only, and writes nothing. -/
theorem exec_rssi_local {i : Instr} (hi : i.unit? = some .rssi) (cfg : Config) :
    ∃ a, ∀ u : State, u.cfg = cfg → exec i u = .next (conclude a u) := by
  cases i <;> cases hi
  case rssi c raw =>
    exact ⟨.ok (byteWord (tc8 (estimate cfg raw c))), by rintro u rfl; rw [conclude_ok]; rfl⟩
  case rssiCurve3 raw => exact ⟨.fault .badCurve, fun _ _ => rfl⟩

/-! ## Operations of different units commute -/

/-- Both orders of `i` and `j` complete from `s`, with the same answers and, but for the last
answer, the same state (R52). -/
def Swaps (s : State) (i j : Instr) : Prop :=
  ∃ a b c d, exec i s = .next a ∧ exec j a = .next b ∧ exec j s = .next c ∧ exec i c = .next d ∧
    a.answers = d.answers ∧ b.answers = c.answers ∧
    { b with answers := [] } = { d with answers := [] }

theorem Swaps.symm {s : State} {i j : Instr} (h : Swaps s i j) : Swaps s j i := by
  obtain ⟨a, b, c, d, ha, hb, hc, hd, hi, hj, hbd⟩ := h
  exact ⟨c, d, a, b, hc, hd, ha, hb, hj.symm, hi.symm, hbd.symm⟩

theorem swaps_tx_rx {i j : Instr} (hi : i.unit? = some .tx) (hj : j.unit? = some .rx)
    (s : State) : Swaps s i j := by
  obtain ⟨tx, x, hx⟩ := exec_tx_local hi s.cfg s.tx
  obtain ⟨rx, m, y, hy⟩ := exec_rx_local hj s.cfg s.rx s.pay
  refine ⟨_, _, _, _, hx s rfl rfl, hy _ rfl rfl rfl, hy s rfl rfl rfl, hx _ rfl rfl, rfl, rfl, ?_⟩
  simp only [conclude, or_answerBits_comm]

theorem swaps_tx_rssi {i j : Instr} (hi : i.unit? = some .tx) (hj : j.unit? = some .rssi)
    (s : State) : Swaps s i j := by
  obtain ⟨tx, x, hx⟩ := exec_tx_local hi s.cfg s.tx
  obtain ⟨y, hy⟩ := exec_rssi_local hj s.cfg
  refine ⟨_, _, _, _, hx s rfl rfl, hy _ rfl, hy s rfl, hx _ rfl rfl, rfl, rfl, ?_⟩
  simp only [conclude, or_answerBits_comm]

theorem swaps_rx_rssi {i j : Instr} (hi : i.unit? = some .rx) (hj : j.unit? = some .rssi)
    (s : State) : Swaps s i j := by
  obtain ⟨rx, m, x, hx⟩ := exec_rx_local hi s.cfg s.rx s.pay
  obtain ⟨y, hy⟩ := exec_rssi_local hj s.cfg
  refine ⟨_, _, _, _, hx s rfl rfl rfl, hy _ rfl, hy s rfl, hx _ rfl rfl rfl, rfl, rfl, ?_⟩
  simp only [conclude, or_answerBits_comm]

/-- Settles O35: one lemma per pair of units, either way round. -/
theorem operationsOfDifferentUnitsCommute : Obligations.OperationsOfDifferentUnitsCommute := by
  intro s i j u v hi hj huv
  cases u <;> cases v
  case tx.rx => exact swaps_tx_rx hi hj s
  case tx.rssi => exact swaps_tx_rssi hi hj s
  case rx.rssi => exact swaps_rx_rssi hi hj s
  case rx.tx => exact (swaps_tx_rx hj hi s).symm
  case rssi.tx => exact (swaps_tx_rssi hj hi s).symm
  case rssi.rx => exact (swaps_rx_rssi hj hi s).symm
  all_goals exact absurd rfl huv

/-! ## Reading twice is reading once -/

theorem isHostOp_of_unit? {i : Instr} {v : BlockUnit} (h : i.unit? = some v) :
    i.isHostOp = true ∧ i ≠ .reset := by
  cases i <;> cases h <;> exact ⟨rfl, nofun⟩

/-- An operation of a unit that writes none of its registers gives its outcome and gives it again. -/
theorem exec_read_repeats {i : Instr} {v : BlockUnit} (hv : i.unit? = some v)
    (hd : i.drivesTx = false) (hw : i.writesRx = false) (s : State) :
    ∃ a, exec i s = .next (conclude a s) ∧
      exec i (conclude a s) = .next (conclude a (conclude a s)) := by
  obtain ⟨hi, hr⟩ := isHostOp_of_unit? hv
  cases v with
  | tx =>
    obtain ⟨tx, a, h⟩ := exec_tx_local hv s.cfg s.tx
    obtain ⟨_, _, htx, _⟩ := exec_host_units hi (h s rfl rfl)
    obtain rfl : tx = s.tx := htx hd hr
    exact ⟨a, h s rfl rfl, h _ rfl rfl⟩
  | rx =>
    obtain ⟨rx, m, a, h⟩ := exec_rx_local hv s.cfg s.rx s.pay
    obtain ⟨_, _, _, hkeep⟩ := exec_host_units hi (h s rfl rfl rfl)
    obtain ⟨rfl, rfl⟩ : rx = s.rx ∧ m = s.pay := hkeep hw
    exact ⟨a, h s rfl rfl rfl, h _ rfl rfl rfl⟩
  | rssi =>
    obtain ⟨a, h⟩ := exec_rssi_local hv s.cfg
    exact ⟨a, h s rfl, h _ rfl⟩

/-- FAULTS gives its word and gives it again: a result word sets no fault bit (R173). -/
theorem exec_faults_repeats (s : State) : ∃ a, exec .faults s = .next (conclude a s) ∧
    exec .faults (conclude a s) = .next (conclude a (conclude a s)) :=
  ⟨.ok (faultsWord s.faults), by simp only [conclude_ok]; exact ⟨rfl, rfl⟩⟩

/-- Settles O33: the outcome is the same again, and taking it again changes nothing. -/
theorem statusReadsAreIdempotent : Obligations.StatusReadsAreIdempotent := by
  intro s i h
  have hrepeats : ∃ a, exec i s = .next (conclude a s) ∧
      exec i (conclude a s) = .next (conclude a (conclude a s)) := by
    rcases h with rfl | rfl | rfl | ⟨k, rfl⟩ | ⟨c, r, rfl⟩ | ⟨r, rfl⟩ | rfl
    case inr.inr.inr.inr.inr.inr => exact exec_faults_repeats s
    all_goals exact exec_read_repeats rfl rfl rfl s
  obtain ⟨a, hfirst, hagain⟩ := hrepeats
  rw [conclude_conclude] at hagain
  refine ⟨conclude a s, hfirst, hagain, fun ⟨r, hr⟩ => ?_⟩
  obtain rfl : a = .ok r := List.head_eq_of_cons_eq hr
  rw [conclude_ok]
  rfl

end Machine

end Sys2Proof
end

section
/-! SUPPORT and PROOFS. The two encodings read and written: a command word by its fields (R75), a
frame by its four invariants (R64), and what decodes encodes back (R114). -/

namespace Sys2Proof

/-! ## Command words by their fields -/

/-- Settles O4: a host operation's word decodes by its fields, a frame by its command byte. -/
theorem decodeOfEncodeIsIdentity : Obligations.DecodeOfEncodeIsIdentity :=
  fun _ _ hcfg hi => decodeRequest_encodeRequest hcfg hi

/-- Settles O1: the operation code selects the arm, and for code 9 the curve select its branch. -/
theorem commandWordsDecodeByTheirFields : Obligations.CommandWordsDecodeByTheirFields := by
  intro w
  have hop : ∀ {op : BitVec 4}, w.extractLsb' 28 4 = op → (opField w).toNat = op.toNat :=
    fun h => congrArg BitVec.toNat h
  have hrssi : w.extractLsb' 28 4 = 0x9#4 → ∀ {v : BitVec 2}, w.extractLsb' 8 2 = v →
      decodeWord w = match curveOfSelect v with
        | some c => .rssi c (byteField w)
        | none => .rssiCurve3 (byteField w) := by
    rintro h _ rfl
    rw [decodeWord, hop h]
    rfl
  refine ⟨?_, ?_, ?_, ?_, ?_, ?_, ?_, ?_, ?_, fun h => ⟨hrssi h, hrssi h, hrssi h, hrssi h⟩,
    ?_, ?_, ?_, ?_, ?_, ?_⟩
  all_goals
    intro h
    rw [decodeWord, hop h]
    rfl

/-- A word decodes by its operation code and the fields that the operation lists. -/
theorem decodeWord_congr {x w : Word} (hop : opField x = opField w)
    (hcmd : opField w = 0x1 → cmdField x = cmdField w)
    (hhalf : opField w = 0x1 ∨ opField w = 0x8 → halfField x = halfField w)
    (hbyte : opField w = 0x2 ∨ opField w = 0x4 ∨ opField w = 0x9 → byteField x = byteField w)
    (hcurve : opField w = 0x9 → curveField x = curveField w) : decodeWord x = decodeWord w := by
  have hcode : ∀ {n : Nat}, (opField w).toNat = n → opField w = BitVec.ofNat 4 n := fun h => by
    rw [← h, BitVec.ofNat_toNat, BitVec.setWidth_eq]
  simp only [decodeWord, hop]
  split
  case h_2 h => rw [hcmd (hcode h), hhalf (.inl (hcode h))]
  case h_3 h => rw [hbyte (.inl (hcode h))]
  case h_5 h => rw [hbyte (.inr (.inl (hcode h)))]
  case h_9 h => rw [hhalf (.inr (hcode h))]
  case h_10 h => rw [hcurve (hcode h), hbyte (.inr (.inr (hcode h)))]
  all_goals rfl

/-- The bits of `w` under the mask `m`, and those of `v` elsewhere. -/
def splice (m w v : Word) : Word := (w &&& m) ||| (v &&& ~~~m)

/-- A field that the mask covers is read from the masked word. -/
theorem extractLsb'_splice {m : Word} {i n : Nat} (h : m.extractLsb' i n = BitVec.allOnes n)
    (w v : Word) : (splice m w v).extractLsb' i n = w.extractLsb' i n := by
  ext j hj
  have hm : m.getLsbD (i + j) = true := by
    have := congrArg (fun x => x.getLsbD j) h
    simpa [hj] using this
  simp [splice, hm]

/-- Settles O3: the mask of an operation covers its code and the fields it lists. -/
theorem unusedBitsAreIgnored : Obligations.UnusedBitsAreIgnored := by
  intro w v
  change decodeWord (splice (usedBits (opField w)) w v) = decodeWord w
  have hcode : ∀ op, (usedBits op).extractLsb' 28 4 = BitVec.allOnes 4 := by decide
  refine decodeWord_congr (extractLsb'_splice (hcode _) w v) (fun h => ?_) (fun h => ?_)
    (fun h => ?_) (fun h => ?_)
  · rw [h]
    exact extractLsb'_splice rfl w v
  · rcases h with h | h <;> rw [h] <;> exact extractLsb'_splice rfl w v
  · rcases h with h | h | h <;> rw [h] <;> exact extractLsb'_splice rfl w v
  · rw [h]
    exact extractLsb'_splice rfl w v

/-- A host operation is spelt by one command word, and every configuration can spell it. -/
theorem encodeRequest_host (cfg : Config) {i : Instr} (hi : i.isHostOp = true) :
    i.wellFormed cfg = true ∧ ∃ w, encodeRequest cfg i = .word w ∧ decodeWord w = i := by
  have hspelt : i.wellFormed cfg = true ∧ ∃ w, encodeRequest cfg i = .word w := by
    cases i <;> simp only [Instr.isHostOp, Bool.false_eq_true] at hi <;> exact ⟨rfl, _, rfl⟩
  obtain ⟨hwf, w, hw⟩ := hspelt
  have hdecode := decodeRequest_encodeRequest_host cfg hi
  rw [hw] at hdecode
  exact ⟨hwf, w, hw, Except.ok.inj hdecode⟩

/-! ## Frames by their four invariants -/

/-- The length field that declares `be16 h l` bytes holds the two bytes themselves (R61). -/
theorem ofNat_be16 (h l : Byte) : BitVec.ofNat 16 (be16 h l) = h ++ l := by
  rw [← append_toNat, BitVec.ofNat_toNat, BitVec.setWidth_eq]

theorem be16_le (h l : Byte) : be16 h l ≤ maxPayload := by
  have := h.isLt
  have := l.isLt
  rw [be16, maxPayload]
  omega

/-- A run as long as a frame is a head, `n` payload bytes and a tail. -/
theorem eq_head_payload_tail {b : List Byte} {n : Nat} (hn : b.length = n + 7) :
    ∃ (h t c hi lo ck tr : Byte) (p : List Byte), p.length = n ∧
      b = [h, t, c, hi, lo] ++ p ++ [ck, tr] := by
  obtain ⟨h, t, c, hi, lo, rest, rfl⟩ :
      ∃ h t c hi lo rest, b = h :: t :: c :: hi :: lo :: rest := by
    match b, hn with
    | h :: t :: c :: hi :: lo :: rest, _ => exact ⟨h, t, c, hi, lo, rest, rfl⟩
  have hrest : rest.length = n + 2 := by simpa using hn
  obtain ⟨ck, tr, htail⟩ : ∃ ck tr, rest.drop n = [ck, tr] :=
    List.length_eq_two.1 (by rw [List.length_drop]; omega)
  refine ⟨h, t, c, hi, lo, ck, tr, rest.take n, by rw [List.length_take]; omega, ?_⟩
  rw [List.append_assoc, ← htail, List.take_append_drop]
  rfl

/-- The source's four invariants make a run the frame of its own fields (R64). -/
theorem eq_frameBytes {cfg : Config} {b : List Byte} {n : Nat} (hn : b.length = n + 7)
    (hheader : b.getD 0 0 = cfg.header) (htrailer : b.getD (6 + n) 0 = cfg.trailer)
    (hlen : be16 (b.getD 3 0) (b.getD 4 0) = n)
    (hsum : sum8 ((b.drop 1).take (4 + n)) = b.getD (5 + n) 0) :
    b = frameBytes cfg (b.getD 1 0) (b.getD 2 0) ((b.drop 5).take n) := by
  obtain ⟨h, t, c, hi, lo, ck, tr, p, rfl, rfl⟩ := eq_head_payload_tail hn
  have hspan : frameSpan t c p = [t, c, hi, lo] ++ p := by
    have hlen' : be16 hi lo = p.length := hlen
    rw [frameSpan, ← hlen', ofNat_be16, hi8_append, lo8_append]
  have hckAt : ([h, t, c, hi, lo] ++ p ++ [ck, tr]).getD (5 + p.length) 0 = ck := by
    simp [List.getD_eq_getElem?_getD, Nat.add_comm 5]
  have htrAt : ([h, t, c, hi, lo] ++ p ++ [ck, tr]).getD (6 + p.length) 0 = tr := by
    simp [List.getD_eq_getElem?_getD, Nat.add_comm 6]
  have hck : sum8 ([t, c, hi, lo] ++ p) = ck := by
    rw [← hckAt, ← hsum]
    simp [Nat.add_comm 4]
  have hh : h = cfg.header := hheader
  rw [htrAt] at htrailer
  simpa [frameBytes, hspan, hh, htrailer] using hck.symm

/-- A run that decodes is the frame of what it decodes to (R114). -/
theorem eq_frameBytes_of_frameDecode {cfg : Config} {b : List Byte} {f : Frame}
    (h : frameDecode cfg b = .ok f) : b = frameBytes cfg f.type f.command f.payload := by
  simp only [frameDecode] at h
  split_ifs at h with _ hheader _ _ htrailer hlength hsum
  cases h
  rw [not_not.1 hlength] at htrailer
  refine eq_frameBytes (not_not.1 hlength) (not_not.1 hheader) ?_ rfl (not_not.1 hsum)
  rw [show 6 + be16 (b.getD 3 0) (b.getD 4 0) = be16 (b.getD 3 0) (b.getD 4 0) + 7 - 1 by omega]
  exact not_not.1 htrailer

/-- Settles O5: a word and its instruction's word decode alike, and a frame is named from the very
bytes or payload of its request. -/
theorem encodeOfDecodeIsFaithful : Obligations.EncodeOfDecodeIsFaithful := by
  intro cfg r i h
  cases r with
  | word w =>
    obtain rfl : decodeWord w = i := Except.ok.inj h
    obtain ⟨hwf, w', hw', hd⟩ := encodeRequest_host cfg (Machine.decodeWord_isHostOp w)
    exact ⟨hwf, nofun, nofun, fun _ e => by cases e; exact ⟨w', hw', hd⟩⟩
  | encode c p =>
    rw [decodeRequest] at h
    split_ifs at h with hp
    cases h
    exact ⟨nameFrame_wellFormed cfg c .sent hp,
      fun _ _ _ => encodeRequest_nameFrame cfg c p .sent, nofun, nofun⟩
  | decode b =>
    rw [decodeRequest] at h
    cases hf : frameDecode cfg b with
    | error e => rw [hf] at h; cases h
    | ok f =>
      rw [hf] at h
      cases h
      refine ⟨nameFrame_wellFormed cfg _ _ (Machine.frameDecode_payload_length hf), nofun,
        fun _ _ => ?_, nofun⟩
      rw [encodeRequest_nameFrame, frameRequest, ← eq_frameBytes_of_frameDecode hf]

/-- Settles O36: the bytes of the head, of the payload and of the tail, each at its index. -/
theorem frameLayout : Obligations.FrameLayout := by
  intro cfg t c p hp b len
  obtain ⟨hheader, htype, hcmd, hhi, hlo⟩ := frameBytes_head cfg t c p
  have hlen : (BitVec.ofNat 16 len).toNat = len := by
    rw [BitVec.toNat_ofNat]
    omega
  refine ⟨frameBytes_length cfg t c p, hheader, htype, hcmd, ?_, ?_,
    fun k => frameBytes_payload cfg t c p, ?_, frameBytes_trailer cfg t c p, rfl⟩
  · rw [hhi, hi8_toNat, hlen]
  · rw [hlo, lo8_toNat, hlen]
  · rw [frameBytes_checksum, sum8_toNat, ← frameBytes_span cfg]

/-- Settles O37: the invariants give every byte of the frame, its layout gives the invariants. -/
theorem validFramesAreFrameBytes : Obligations.ValidFramesAreFrameBytes := by
  intro cfg b h7 n
  obtain ⟨m, hm⟩ : ∃ m, n = m + 7 := ⟨n - 7, by omega⟩
  rw [show n - 7 = m by omega, show n - 1 = 6 + m by omega, show n - 3 = 4 + m by omega,
    show n - 2 = 5 + m by omega]
  constructor
  · rintro ⟨hheader, htrailer, hlen, hsum⟩
    exact ⟨eq_frameBytes hm hheader htrailer hlen hsum, hlen ▸ be16_le _ _⟩
  · rintro ⟨hb, hm'⟩
    have hp : ((b.drop 5).take m).length = m := by
      rw [List.length_take, List.length_drop]
      omega
    generalize b.getD 1 0 = t, b.getD 2 0 = c, (b.drop 5).take m = p at hb hp
    subst hb hp
    obtain ⟨hheader, _, _, hhi, hlo⟩ := frameBytes_head cfg t c p
    exact ⟨hheader, frameBytes_trailer cfg t c p, by rw [hhi, hlo, be16_payload_length hm'],
      by rw [frameBytes_span, frameBytes_checksum]⟩

/-- Settles O2: the words by evaluation, each frame as the encoder's bytes of its instruction. -/
theorem sampleEncodingsDecode : Obligations.SampleEncodingsDecode := by
  refine ⟨rfl, rfl, rfl, rfl, rfl, rfl, rfl, fun cfg hh ht hc => ?_, fun cfg hh ht hc hv => ?_⟩
  · have hframe : [0xBB, 0x00, 0x22, 0x00, 0x00, 0x22, 0x7E] = frameBytes cfg 0x00 0x22 [] := by
      rw [frameBytes, hh, ht]
      rfl
    rw [hframe]
    refine (decodeRequest_frameRequest cfg (.received 0x00) 0x22 (Nat.zero_le _)).trans ?_
    rw [nameFrame, if_pos hc.symm]
  · have hframe : [0xBB, 0x01, 0xFF, 0x00, 0x01, 0x15, 0x16, 0x7E] =
        frameBytes cfg 0x01 cfg.cmdError [0x15] := by
      rw [frameBytes, hh, ht, hc]
      rfl
    rw [hframe]
    exact decodeRequest_encodeRequest (i := .frameError (.received 0x01) [0x15]) hv rfl

end Sys2Proof
end

section
/-! SUPPORT and PROOFS. Frame instructions and DECODE requests (R81): each is its expansion issued
in order; what the RX unit holds and answers after it. -/

namespace Sys2Proof.Machine

/-! ## Expansions -/

/-- Settles O45: a frame instruction is `frameOp` of its frame, which issues the expansion. -/
theorem frameInstructionsAreTheirExpansions : Obligations.FrameInstructionsAreTheirExpansions := by
  intro s i c p hp
  refine ⟨fun hf => ?_, fun ty hf => ?_⟩
  · obtain ⟨u, as, hu, he⟩ := encodeRun_issueAll c p s
    exact ⟨u, as, hu, by rw [exec_frame hf, frameOp_sent c hp, he]⟩
  · obtain ⟨u, as, hu, he⟩ := decodeRun_issueAll (frameBytes s.cfg ty c p) s
    exact ⟨u, as, hu, by rw [exec_frame hf, frameOp_received c ty hp, he]⟩

/-! ## The verdict of a run -/

theorem runVerdict_eq (cfg : Config) (b : List Byte) : runVerdict cfg b =
    if b.length = 0 then some .incomplete
    else if b.getD 0 0 ≠ cfg.header then some .badMarker
    else if b.length < 5 then some .incomplete
    else if b.length < be16 (b.getD 3 0) (b.getD 4 0) + 7 then some .incomplete
    else if b.getD (b.length - 1) 0 ≠ cfg.trailer then some .badMarker
    else if b.length ≠ be16 (b.getD 3 0) (b.getD 4 0) + 7 then some .lengthMismatch
    else if sum8 ((b.drop 1).take (4 + be16 (b.getD 3 0) (b.getD 4 0))) ≠
      b.getD (5 + be16 (b.getD 3 0) (b.getD 4 0)) 0 then some .checksumMismatch
    else none := by
  rw [runVerdict, frameDecode]
  split_ifs <;> rfl

/-- The eight tests of R120 on the registers are, one by one, those of R110 on the run they hold
(R126): the count saturates above the longest frame. -/
theorem HoldsRun.decodeErrorOf_eq {cfg : Config} {b : List Byte} {rx : Rx} {m : Memory}
    (h : HoldsRun cfg b rx m) : decodeErrorOf cfg rx = runVerdict cfg b := by
  have hcount := h.count
  rw [runVerdict_eq, decodeErrorOf]
  refine ite_congr (by rw [eq_iff_iff]; omega) (fun _ => rfl) fun h0 => ?_
  refine ite_congr (by simp [h.hdrOk (by omega)]) (fun _ => rfl) fun _ => ?_
  refine ite_congr (by rw [eq_iff_iff]; omega) (fun _ => rfl) fun h5 => ?_
  rw [← h.len (by omega)]
  have := rx.len.isLt
  refine ite_congr (by rw [eq_iff_iff]; omega) (fun _ => rfl) fun hlen => ?_
  refine ite_congr (by rw [h.last (by omega)]) (fun _ => rfl) fun _ => ?_
  refine ite_congr (by rw [eq_iff_iff]; omega) (fun _ => rfl) fun _ => ?_
  rw [h.sum, h.ck (by omega)]

/-- The registers that hold a whole frame are the frame's fields (R15, R16). -/
theorem HoldsRun.rx_eq {cfg : Config} {ty c : Byte} {p : List Byte} {rx : Rx} {m : Memory}
    (h : HoldsRun cfg (frameBytes cfg ty c p) rx m) (hp : p.length ≤ maxPayload) :
    rx = {
      count := BitVec.ofNat 17 (p.length + 7), hdrOk := true, type := ty, cmd := c
      len := BitVec.ofNat 16 p.length, sum := sum8 (frameSpan ty c p)
      ck := sum8 (frameSpan ty c p), last := cfg.trailer } := by
  obtain ⟨hheader, htype, hcmd, hhi, hlo⟩ := frameBytes_head cfg ty c p
  have hlength := frameBytes_length cfg ty c p
  rw [maxPayload] at hp
  have hlen : rx.len.toNat = p.length := by
    rw [h.len (by omega), hhi, hlo, be16_payload_length hp]
  have hcount : rx.count = BitVec.ofNat 17 (p.length + 7) := by
    apply BitVec.eq_of_toNat_eq
    rw [h.count, BitVec.toNat_ofNat]
    omega
  have hhdr : rx.hdrOk = true := by rw [h.hdrOk (by omega), hheader, decide_eq_true rfl]
  have hty : rx.type = ty := by rw [h.type (by omega), htype]
  have hc : rx.cmd = c := by rw [h.cmd (by omega), hcmd]
  have hl : rx.len = BitVec.ofNat 16 p.length := by
    rw [← hlen, BitVec.ofNat_toNat, BitVec.setWidth_eq]
  have hsum : rx.sum = sum8 (frameSpan ty c p) := by rw [h.sum, hlen, frameBytes_span]
  have hck : rx.ck = sum8 (frameSpan ty c p) := by
    rw [h.ck (by omega), hlen, frameBytes_checksum]
  have hlast : rx.last = cfg.trailer := by
    rw [h.last (by omega), hlength, show p.length + 7 - 1 = 6 + p.length by omega,
      frameBytes_trailer]
  change Rx.mk rx.count rx.hdrOk rx.type rx.cmd rx.len rx.sum rx.ck rx.last = _
  rw [hcount, hhdr, hty, hc, hl, hsum, hck, hlast]

/-- The cells that a whole frame has stored are its payload (R16, R24). -/
theorem HoldsRun.payload {cfg : Config} {ty c : Byte} {p : List Byte} {rx : Rx} {m : Memory}
    (h : HoldsRun cfg (frameBytes cfg ty c p) rx m) (hp : p.length ≤ maxPayload) :
    rxStored rx = p.length ∧ ∀ k, k < p.length → payRead m k = p.getD k 0 := by
  have hstored : rxStored rx = p.length := by
    rw [maxPayload] at hp
    rw [h.rx_eq hp, rxStored, BitVec.toNat_ofNat, BitVec.toNat_ofNat]
    omega
  refine ⟨hstored, fun k hk => ?_⟩
  rw [payRead, h.stored k (by omega), Option.getD_some, frameBytes_payload cfg ty c p hk]

/-! ## DECODE in one step -/

/-- What a state after RXCLR has, and a push and new answers keep, a DECODE leaves. -/
theorem decodeRun_induction {P : State → Prop} (hans : ∀ u a, P u → P { u with answers := a })
    (hpush : ∀ x u, P u → P (rxPush x u)) (b : List Byte) {s : State} (hclear : P (rxClear s)) :
    P (decodeRun b s) := by
  refine hans _ _ (performAll_keeps hans _ (fun op hop => ?_) (rxClear s) hclear)
  rcases List.mem_append.1 hop with hop | hop
  · obtain ⟨x, _, rfl⟩ := List.mem_map.1 hop
    exact hpush x
  · rw [List.mem_singleton.1 hop]
    exact fun u hu => hans u _ hu

theorem decodeRun_holds (b : List Byte) (s : State) :
    HoldsRun s.cfg b (decodeRun b s).rx (decodeRun b s).pay := by
  obtain ⟨u, as, hu, he⟩ := decodeRun_issueAll b s
  have hwrites : (decodeOps b).filter Instr.writesRx = .rxclr :: b.map .rxpush := by
    have hpush : (b.map Instr.rxpush).filter Instr.writesRx = b.map .rxpush :=
      List.filter_eq_self.2 fun i hi => by
        obtain ⟨x, _, rfl⟩ := List.mem_map.1 hi
        rfl
    rw [decodeOps, List.cons_append, List.filter_cons_of_pos rfl, List.filter_append, hpush]
    exact congrArg _ (List.append_nil _)
  have hholds : HoldsRun s.cfg b u.rx u.pay :=
    holdsRun_of_issueAll (fun i hi => (mem_decodeOps hi).1) (.inl rfl) hwrites rfl hu
  rw [he]
  exact hholds

/-- A DECODE works on the RX unit alone (R52). -/
theorem decodeRun_frame (b : List Byte) (s : State) :
    (decodeRun b s).cfg = s.cfg ∧ (decodeRun b s).tx = s.tx ∧
      (decodeRun b s).faults = s.faults ∧ (decodeRun b s).port = s.port :=
  decodeRun_induction (P := fun u => u.cfg = s.cfg ∧ u.tx = s.tx ∧ u.faults = s.faults ∧
    u.port = s.port) (fun _ _ hu => hu) (fun _ _ hu => hu) b ⟨rfl, rfl, rfl, rfl⟩

/-- A cell that the run has not stored is as it was (R41). -/
theorem decodeRun_payRead (b : List Byte) (s : State) :
    ∀ k, rxStored (decodeRun b s).rx ≤ k → payRead (decodeRun b s).pay k = payRead s.pay k := by
  refine decodeRun_induction (P := fun u => ∀ k, rxStored u.rx ≤ k →
    payRead u.pay k = payRead s.pay k) (fun _ _ hu => hu) (fun x u hu k hk => ?_) b fun _ _ => rfl
  have hk' : rxStored (rxNext u.cfg u.rx x) ≤ k := hk
  by_cases hp : 5 ≤ u.rx.count.toNat ∧ u.rx.count.toNat < 5 + u.rx.len.toNat
  · obtain ⟨hs, hs'⟩ := rxStored_rxNext_payload u.cfg x hp.1 hp.2
    exact (payRead_rxStore_of_not (by omega)).trans (hu k (by omega))
  · rw [rxStored_rxNext_other u.cfg x hp] at hk'
    exact (payRead_rxStore_of_not (by omega)).trans (hu k hk')

/-- Every push answers 0, and the RXSTAT after them the verdict that they leave. -/
theorem performAll_pushes_answers : ∀ (b : List Byte) (s : State),
    (performAll (b.map rxPush ++ [rxStat]) s).answers = List.replicate b.length (.ok 0) ++
      [.ok (rxstatWord (verdict (performAll (b.map rxPush ++ [rxStat]) s))
        (performAll (b.map rxPush ++ [rxStat]) s).rx.count)]
  | [], _ => rfl
  | x :: b, s => congrArg (List.cons (Answer.ok 0)) (performAll_pushes_answers b (rxPush x s))

theorem rxstatWord_eq (v : Option DecodeError) (n : Count) :
    rxstatWord v n = BitVec.ofNat 32 ((verdictCode v).toNat + 8 * n.toNat) := by
  apply BitVec.eq_of_toNat_eq
  have := n.isLt
  have := (verdictCode v).isLt
  rw [rxstatWord, toNat_append_add, toNat_append_add, BitVec.toNat_ofNat]
  simp only [BitVec.toNat_ofNat, Nat.zero_mod, BitVec.ofNat_eq_ofNat]
  omega

/-- The verdict of a DECODE is that of the run (R126), and the answers are 0 for RXCLR and each
push, then RXSTAT's word with the run's verdict and the saturated count (R123). -/
theorem decodeRun_verdict (b : List Byte) (s : State) :
    verdict (decodeRun b s) = runVerdict s.cfg b ∧
    (decodeRun b s).answers = List.replicate (b.length + 1) (.ok 0) ++
      [.ok (BitVec.ofNat 32 ((verdictCode (runVerdict s.cfg b)).toNat
        + 8 * min b.length 131071))] := by
  obtain ⟨hcfg, _⟩ := decodeRun_frame b s
  have hholds := decodeRun_holds b s
  have hverdict : verdict (decodeRun b s) = runVerdict s.cfg b := by
    rw [verdict, hcfg, hholds.decodeErrorOf_eq]
  have hanswers : (decodeRun b s).answers = List.replicate (b.length + 1) (.ok 0) ++
      [.ok (rxstatWord (verdict (decodeRun b s)) (decodeRun b s).rx.count)] :=
    congrArg (List.cons (Answer.ok 0)) (performAll_pushes_answers b (rxClear s))
  exact ⟨hverdict, by rw [hanswers, hverdict, rxstatWord_eq, hholds.count]⟩

/-- Settles O48: the run's verdict is the error that Decode gives. -/
theorem runsThatAreNoFrameAreDecodedToo : Obligations.RunsThatAreNoFrameAreDecodedToo := by
  intro s b rest e hport herror
  have hstep : step s = .next (decodeRun b { s with port := rest }) := by
    rw [step_request hport, decodeRequest, herror]
    rfl
  have hrun : runVerdict s.cfg b = some e := by rw [runVerdict, herror]
  obtain ⟨_, htx, hfaults, hrest⟩ := decodeRun_frame b { s with port := rest }
  obtain ⟨hverdict, hanswers⟩ := decodeRun_verdict b { s with port := rest }
  exact ⟨_, hstep, hverdict.trans hrun, hrest, htx, hfaults, hrun ▸ hanswers⟩

/-- Settles O47: the RX unit holds the frame's bytes, hence its fields, payload and verdict. -/
theorem receivedFramesAreDecoded : Obligations.ReceivedFramesAreDecoded := by
  intro s i ty c p hp hf
  have hexec : exec i s = .next (decodeRun (frameBytes s.cfg ty c p) s) := by
    rw [exec_frame hf, frameOp_received c ty hp]
  have hrun : runVerdict s.cfg (frameBytes s.cfg ty c p) = none := by
    rw [runVerdict, frameDecode_frameBytes s.cfg ty c hp]
  have hholds := decodeRun_holds (frameBytes s.cfg ty c p) s
  obtain ⟨hcfg, htx, hfaults, hport⟩ := decodeRun_frame (frameBytes s.cfg ty c p) s
  obtain ⟨hverdict, hanswers⟩ := decodeRun_verdict (frameBytes s.cfg ty c p) s
  obtain ⟨hstored, hpayload⟩ := hholds.payload hp
  refine ⟨_, hexec, hcfg, htx, hfaults, hport, hholds.rx_eq hp, hverdict.trans hrun, hpayload,
    fun k hk => decodeRun_payRead _ s k (by omega), ?_⟩
  rw [hanswers, hrun, frameBytes_length, min_eq_left (by omega)]
  rfl

end Sys2Proof.Machine
end

section
/-! SUPPORT and PROOFS. A frame on its way out (R93, R95): the TX registers and the answers at every
index of the frame; and READFRAME, a sequence of reads (R81). -/

namespace Sys2Proof.Machine

/-! ## The TX unit at every index of a frame -/

/-- The TX registers when `i` bytes of `Encode(c, p)` have been emitted: TXBEGIN's at 0, and idle
again once the trailer is out. -/
def txAt (cfg : Config) (c : Byte) (p : List Byte) (i : Nat) : Tx where
  active := decide (i < p.length + 7)
  idx := if i < p.length + 7 then BitVec.ofNat 17 i else 0
  cmd := c
  len := BitVec.ofNat 16 p.length
  sum := sum8 ((frameSpan cfg.typeByte c p).take (i - 1))

/-- What the TXSTEP of frame byte `i` gives back: the byte, with r[8] on the last (R75). -/
def txAnswer (cfg : Config) (c : Byte) (p : List Byte) (i : Nat) : Answer :=
  .ok (txstepWord ((frameEncode cfg c p).getD i 0) (decide (i = p.length + 6)))

/-- The sum takes the frame's bytes of the indices 1 .. 4+L (R62, R93). -/
theorem sum8_take_frameSpan (cfg : Config) (c : Byte) (p : List Byte) (i : Nat) :
    sum8 ((frameSpan cfg.typeByte c p).take i) =
      if 1 ≤ i ∧ i ≤ 4 + p.length then
        sum8 ((frameSpan cfg.typeByte c p).take (i - 1)) + (frameEncode cfg c p).getD i 0
      else sum8 ((frameSpan cfg.typeByte c p).take (i - 1)) := by
  have hlength := frameSpan_length cfg.typeByte c p
  split_ifs with h
  · obtain ⟨j, rfl⟩ : ∃ j, i = j + 1 := ⟨i - 1, by omega⟩
    have hbyte : (frameEncode cfg c p).getD (j + 1) 0 =
        (frameSpan cfg.typeByte c p)[j]'(by omega) := by
      rw [frameEncode, frameBytes, List.append_assoc, List.singleton_append, List.getD_cons_succ,
        List.getD_append _ _ _ _ (by omega), List.getD_eq_getElem]
    rw [List.take_add_one, List.getElem?_eq_getElem (by omega), sum8_append, hbyte]
    simp [sum8]
  · rcases Nat.eq_zero_or_pos i with rfl | h0
    · rfl
    · rw [List.take_of_length_le (by omega), List.take_of_length_le (by omega)]

section frame
variable (cfg : Config) (c : Byte) {p : List Byte} (hp : p.length ≤ maxPayload) {i : Nat}
  (hi : i < p.length + 7)
include hp

theorem txAt_len : (txAt cfg c p i).len.toNat = p.length := by
  rw [maxPayload] at hp
  rw [txAt, BitVec.toNat_ofNat]
  omega

include hi

theorem txAt_idx : (txAt cfg c p i).idx.toNat = i := by
  rw [maxPayload] at hp
  rw [txAt, if_pos hi, BitVec.toNat_ofNat]
  omega

theorem txLast_txAt : txLast (txAt cfg c p i) = decide (i = p.length + 6) := by
  rw [txLast, txAt_len cfg c hp, txAt_idx cfg c hp hi, Nat.add_comm]

/-- The byte that TXSTEP emits is the frame's, where the operand is the payload byte (R93). -/
theorem txOut_txAt {d : Byte} (hd : 5 ≤ i → i < 5 + p.length → d = p.getD (i - 5) 0) :
    txOut cfg (txAt cfg c p i) d = (frameEncode cfg c p).getD i 0 := by
  obtain ⟨hheader, htype, hcmd, hhi, hlo⟩ := frameBytes_head cfg cfg.typeByte c p
  rw [frameEncode, txOut, txAt_len cfg c hp, txAt_idx cfg c hp hi]
  split_ifs with h0 h1 h2 h3 h4 h5 h6
  · rw [h0, hheader]
  · rw [h1, htype]
  · rw [h2, hcmd, txAt]
  · rw [h3, hhi, txAt]
  · rw [h4, hlo, txAt]
  · rw [hd (by omega) h5, ← frameBytes_payload cfg cfg.typeByte c p (by omega),
      Nat.add_sub_cancel' (by omega)]
  · rw [h6, frameBytes_checksum, txAt, List.take_of_length_le (by rw [frameSpan_length]; omega)]
  · rw [show i = 6 + p.length by omega, frameBytes_trailer]

/-- The registers after that TXSTEP are those of the next index (R93). -/
theorem txAdvance_txAt :
    txAdvance (txAt cfg c p i) ((frameEncode cfg c p).getD i 0) = txAt cfg c p (i + 1) := by
  have hsum := sum8_take_frameSpan cfg c p i
  rw [txAdvance, txLast_txAt cfg c hp hi, txAt_len cfg c hp, txAt_idx cfg c hp hi]
  simp only [txAt, Nat.add_sub_cancel, hsum, decide_eq_true_eq, Tx.mk.injEq, and_true]
  by_cases hl : i = p.length + 6
  · rw [if_pos hl, if_pos hl, if_neg (by omega), decide_eq_false (by omega)]
    exact ⟨rfl, rfl⟩
  · rw [if_neg hl, if_neg hl, if_pos hi, if_pos (by omega), decide_eq_true hi,
      decide_eq_true (by omega)]
    exact ⟨rfl, (BitVec.ofNat_add i 1).symm⟩

end frame

/-- One TXSTEP on, from any state in which `i` bytes of the frame are out (R93, R95). -/
theorem txStep_txAt {s : State} {c : Byte} {p : List Byte} (hp : p.length ≤ maxPayload) {i : Nat}
    (hi : i < p.length + 7) (htx : s.tx = txAt s.cfg c p i) {d : Byte}
    (hd : 5 ≤ i → i < 5 + p.length → d = p.getD (i - 5) 0) :
    txStep d s = { s with
      tx := txAt s.cfg c p (i + 1), answers := [txAnswer s.cfg c p i] } := by
  have hactive : s.tx.active = true := by
    rw [htx]
    exact decide_eq_true hi
  have hout : txOut s.cfg s.tx d = (frameEncode s.cfg c p).getD i 0 := by
    rw [htx, txOut_txAt s.cfg c hp hi hd]
  have hnext : txAdvance s.tx (txOut s.cfg s.tx d) = txAt s.cfg c p (i + 1) := by
    rw [hout, htx, txAdvance_txAt s.cfg c hp hi]
  have hlast : txLast s.tx = decide (i = p.length + 6) := by rw [htx, txLast_txAt s.cfg c hp hi]
  rcases txStep_cases d s with ⟨hidle, _⟩ | ⟨_, e⟩
  · simp [hidle] at hactive
  · rw [e, hnext, hout, hlast]
    rfl

/-! ## ENCODE in one step -/

theorem stepOperands_length (p : List Byte) : (stepOperands p).length = p.length + 7 := by
  simp [stepOperands]

theorem stepOperands_payload (p : List Byte) {i : Nat} (h5 : 5 ≤ i) (hi : i < 5 + p.length) :
    (stepOperands p).getD i 0 = p.getD (i - 5) 0 := by
  rw [stepOperands, List.append_assoc, List.getD_append_right _ _ _ _ (by simpa using h5),
    List.length_replicate, List.getD_append _ _ _ _ (by omega)]

/-- The TXSTEPs from index `i` on emit the rest of the frame, with their operands as R81 gives
them. -/
theorem performAll_txSteps (c : Byte) {p : List Byte} (hp : p.length ≤ maxPayload) {i : Nat}
    (hi : i ≤ p.length + 7) : ∀ s : State, s.tx = txAt s.cfg c p i →
      performAll (((stepOperands p).drop i).map txStep) s = { s with
        tx := txAt s.cfg c p (p.length + 7)
        answers := (List.range' i (p.length + 7 - i)).map (txAnswer s.cfg c p) } := by
  induction hi using Nat.decreasingInduction with
  | self =>
    intro s htx
    rw [List.drop_eq_nil_of_le (stepOperands_length p).le, Nat.sub_self, ← htx]
    rfl
  | of_succ i hi ih =>
    intro s htx
    have hlength := stepOperands_length p
    have hstep : txStep (stepOperands p)[i] s = { s with
        tx := txAt s.cfg c p (i + 1), answers := [txAnswer s.cfg c p i] } :=
      txStep_txAt hp hi htx fun h5 h => by
        rw [← stepOperands_payload p h5 h, List.getD_eq_getElem]
    rw [List.drop_eq_getElem_cons (by omega), List.map_cons, performAll_cons, hstep, ih _ rfl,
      show p.length + 7 - i = p.length + 7 - (i + 1) + 1 by omega, List.range'_succ]
    rfl

/-- The result word of a step that does not end the frame is its byte (R75). -/
theorem txstepWord_false (out : Byte) : txstepWord out false = out.setWidth 32 := by
  apply BitVec.eq_of_toNat_eq
  have := out.isLt
  rw [txstepWord_toNat, BitVec.toNat_setWidth, if_neg Bool.false_ne_true]
  omega

/-- The result word of the step that ends it has bit 8 set (R75). -/
theorem txstepWord_true (out : Byte) : txstepWord out true = 0x100 ||| out.setWidth 32 := by
  apply BitVec.eq_of_toNat_eq
  have := out.isLt
  have hor : 256 + out.toNat = 256 ||| out.toNat := Nat.two_pow_add_eq_or_of_lt (i := 8) out.isLt 1
  rw [txstepWord_toNat, if_pos rfl, BitVec.toNat_or, BitVec.toNat_setWidth,
    Nat.mod_eq_of_lt (by omega), Nat.add_comm]
  exact hor

/-- The answers of the TXSTEPs are the bytes of `Encode(c, p)`, r[8] on the last (R95). -/
theorem map_txAnswer (cfg : Config) (c : Byte) (p : List Byte) :
    Answer.ok 0 :: (List.range (p.length + 7)).map (txAnswer cfg c p) = encodeAnswers cfg c p := by
  have hlength : (frameEncode cfg c p).length = p.length + 7 := frameBytes_length cfg _ c p
  have hbytes : (List.range (p.length + 6)).map (txAnswer cfg c p) =
      (frameEncode cfg c p).dropLast.map fun b => .ok (b.setWidth 32) := by
    refine List.ext_getElem (by simp [hlength]) fun i hi hi' => ?_
    have hi'' : i < p.length + 6 := by simpa using hi
    rw [List.getElem_map, List.getElem_map, List.getElem_range, List.getElem_dropLast, txAnswer,
      decide_eq_false hi''.ne, txstepWord_false, List.getD_eq_getElem]
  have hlast : txAnswer cfg c p (p.length + 6) = .ok (0x100 ||| cfg.trailer.setWidth 32) := by
    rw [txAnswer, decide_eq_true rfl, txstepWord_true, frameEncode, Nat.add_comm,
      frameBytes_trailer]
  rw [encodeAnswers, List.range_succ, List.map_append, hbytes, List.map_singleton, hlast]
  rfl

/-- Settles O46: from an idle unit TXBEGIN puts the registers at index 0 of the frame. -/
theorem sentFramesAreEncoded : Obligations.SentFramesAreEncoded := by
  intro s i c p hp hf hidle
  have hbegin : txBegin c (BitVec.ofNat 16 p.length) s =
      answer 0 { s with tx := txAt s.cfg c p 0 } := by
    rcases txBegin_cases c (BitVec.ofNat 16 p.length) s with ⟨hbusy, _⟩ | ⟨_, e⟩
    · simp [hidle] at hbusy
    · rw [e]
      simp [txAt, sum8]
  have hsteps := performAll_txSteps c hp (Nat.zero_le _)
    (answer 0 { s with tx := txAt s.cfg c p 0 }) rfl
  rw [List.drop_zero, Nat.sub_zero, ← List.range_eq_range'] at hsteps
  have hdone : txAt s.cfg c p (p.length + 7) = {
      active := false, idx := 0, cmd := c, len := BitVec.ofNat 16 p.length
      sum := sum8 (frameSpan s.cfg.typeByte c p) } := by
    rw [txAt, List.take_of_length_le (by rw [frameSpan_length]; omega)]
    simp
  rw [exec_frame hf, frameOp_sent c hp, encodeRun, performAll_cons, hbegin, hsteps, answer_cfg,
    hdone, ← map_txAnswer]
  rfl

/-! ## READFRAME -/

/-- Operations that only read give their answers, each the one it gives from `s` (R48). -/
theorem performAll_reads {ops : List (State → State)} {as : List Answer} {s : State}
    (h : List.Forall₂ (fun op a => ∀ x, op { s with answers := x } = { s with answers := [a] })
      ops as) : ∀ x, performAll ops { s with answers := x } = { s with answers := as } := by
  induction h with
  | nil => exact fun _ => rfl
  | cons hd _ ih =>
    intro x
    rw [performAll_cons, hd, ih]
    rfl

theorem rxhdrWord_toNat (rx : Rx) : (rxhdrWord rx).toNat =
    rx.type.toNat * 2 ^ 24 + rx.cmd.toNat * 2 ^ 16 + rx.len.toNat := by
  rw [rxhdrWord, toNat_append_add, toNat_append_add]
  omega

/-- Settles O50: with verdict Ok the header word and each payload byte below `rx_len` are read. -/
theorem readframeReadsTheFrame : Obligations.ReadframeReadsTheFrame := by
  intro s hv
  refine ⟨rxhdrWord s.rx, rxhdrWord_toNat s.rx, ?_⟩
  have hheader : ∀ x, rxHdr { s with answers := x } =
      { s with answers := [.ok (rxhdrWord s.rx)] } := fun _ => if_pos hv
  refine performAll_reads (.cons hheader ?_) s.answers
  rw [List.forall₂_map_left_iff, List.forall₂_map_right_iff, List.forall₂_same]
  intro k hk x
  have hk' : (BitVec.ofNat 16 k).toNat = k := by
    have := List.mem_range.1 hk
    have := s.rx.len.isLt
    rw [BitVec.toNat_ofNat]
    omega
  refine (if_pos hv).trans ((if_pos (by rw [hk']; exact List.mem_range.1 hk)).trans ?_)
  rw [hk', byteWord_eq_setWidth]
  rfl

end Sys2Proof.Machine
end

section
/-! SUPPORT and PROOFS. The TX unit's operations one by one (R91 to R93): TXBEGIN, and TXSTEP by the
phase that it finds the unit in. -/

namespace Sys2Proof.Machine

/-! ## TXBEGIN -/

theorem txBegin_of_idle (c : Byte) (l : Half) {s : State} (h : s.tx.active = false) :
    txBegin c l s =
      answer 0 { s with tx := { active := true, idx := 0, cmd := c, len := l, sum := 0 } } :=
  if_neg (by rw [h]; exact Bool.false_ne_true)

theorem txBegin_of_busy (c : Byte) (l : Half) {s : State} (h : s.tx.active = true) :
    txBegin c l s = raise .txBusy s := if_pos h

/-- Settles O10: the two branches of TXBEGIN; a frame at index 0 needs no payload byte yet. -/
theorem txbeginStartsAFrame : Obligations.TxbeginStartsAFrame := by
  refine ⟨fun w hw => ?_, fun s c l hidle => ?_, fun s c l hbusy => ?_, fun s t c l hidle ht => ?_⟩
  · obtain ⟨_, hbegin, _⟩ := commandWordsDecodeByTheirFields w
    exact hbegin hw
  · exact congrArg Host.Outcome.next (txBegin_of_idle c l hidle)
  · exact congrArg Host.Outcome.next (txBegin_of_busy c l hbusy)
  · cases ht
    rw [txBegin_of_idle c l hidle]
    rfl

/-! ## The phases -/

/-- R91's condition for each phase, the phases told apart by `tx_active`, `tx_idx` and `tx_len`. -/
def InPhase (tx : Tx) : TxPhase → Prop
  | .idle => tx.active = false
  | .header => tx.active = true ∧ tx.idx.toNat = 0
  | .type => tx.active = true ∧ tx.idx.toNat = 1
  | .cmd => tx.active = true ∧ tx.idx.toNat = 2
  | .lenHi => tx.active = true ∧ tx.idx.toNat = 3
  | .lenLo => tx.active = true ∧ tx.idx.toNat = 4
  | .payload => tx.active = true ∧ 5 ≤ tx.idx.toNat ∧ tx.idx.toNat < 5 + tx.len.toNat
  | .cksum => tx.active = true ∧ tx.idx.toNat = 5 + tx.len.toNat
  | .trailer => tx.active = true ∧ 6 + tx.len.toNat ≤ tx.idx.toNat

/-- A state is in the phase that the ordered tests of R91 name. -/
theorem inPhase_txPhase (tx : Tx) : InPhase tx (txPhase tx) := by
  unfold txPhase
  split_ifs with ha <;> rw [InPhase]
  · exact ha
  all_goals exact ⟨by simpa using ha, by omega⟩

/-- The conditions of the nine phases exclude each other, so the condition decides the phase. -/
theorem InPhase.txPhase_eq {tx : Tx} {ph : TxPhase} (h : InPhase tx ph) : txPhase tx = ph := by
  cases ph with
  | idle => exact if_pos h
  | _ =>
    obtain ⟨ha, h⟩ := h
    rw [txPhase, if_neg (by simp [ha])]
    split_ifs <;> first | rfl | omega

theorem txPhase_eq_iff {tx : Tx} {ph : TxPhase} : txPhase tx = ph ↔ InPhase tx ph :=
  ⟨fun h => h ▸ inPhase_txPhase tx, InPhase.txPhase_eq⟩

/-- The byte that R91's table gives each phase; IDLE emits none. -/
def phaseByte (cfg : Config) (tx : Tx) (d : Byte) : TxPhase → Option Byte
  | .idle => none
  | .header => some cfg.header
  | .type => some cfg.typeByte
  | .cmd => some tx.cmd
  | .lenHi => some (hi8 tx.len)
  | .lenLo => some (lo8 tx.len)
  | .payload => some d
  | .cksum => some tx.sum
  | .trailer => some cfg.trailer

/-- `out` of R93 is the byte of the phase: R93 makes the tests of R91. -/
theorem InPhase.txOut_eq {cfg : Config} {tx : Tx} {d out : Byte} {ph : TxPhase} (h : InPhase tx ph)
    (hb : phaseByte cfg tx d ph = some out) : txOut cfg tx d = out := by
  rw [← h.txPhase_eq] at hb
  simp only [txPhase] at hb
  simp only [txOut]
  split_ifs at hb ⊢ <;> cases hb <;> rfl

/-! ## TXSTEP -/

theorem txStep_of_idle (d : Byte) {s : State} (h : s.tx.active = false) :
    txStep d s = raise .txIdle s := if_neg (by rw [h]; exact Bool.false_ne_true)

theorem txStep_of_busy (d : Byte) {s : State} (h : s.tx.active = true) :
    txStep d s = answer (txstepWord (txOut s.cfg s.tx d) (txLast s.tx))
      { s with tx := txAdvance s.tx (txOut s.cfg s.tx d) } := if_pos h

/-- The registers after a TXSTEP, in the index as a number: 17 bits hold it (R93, R97). -/
theorem txAdvance_eq {tx : Tx} (ha : tx.active = true) (out : Byte) :
    txAdvance tx out = { tx with
      active := decide (tx.idx.toNat ≠ 6 + tx.len.toNat)
      idx := if tx.idx.toNat = 6 + tx.len.toNat then 0 else BitVec.ofNat 17 (tx.idx.toNat + 1)
      sum := if 1 ≤ tx.idx.toNat ∧ tx.idx.toNat ≤ 4 + tx.len.toNat then tx.sum + out
        else tx.sum } := by
  have hsucc : BitVec.ofNat 17 (tx.idx.toNat + 1) = tx.idx + 1 := by simp [BitVec.ofNat_add]
  rw [hsucc, txAdvance]
  by_cases hl : tx.idx.toNat = 6 + tx.len.toNat <;> simp [txLast, hl, ha]

/-- Settles O11: the byte by the phase that each index is in, the registers by `txAdvance_eq`. -/
theorem txstepEmitsTheNextByte : Obligations.TxstepEmitsTheNextByte := by
  refine ⟨fun w hw => ?_, fun s d hidle => ?_, fun s d ha hi => ?_⟩
  · obtain ⟨_, _, hstep, _⟩ := commandWordsDecodeByTheirFields w
    exact hstep hw
  · exact congrArg Host.Outcome.next (txStep_of_idle d hidle)
  · have hout : ∀ {ph out}, InPhase s.tx ph → phaseByte s.cfg s.tx d ph = some out →
        txOut s.cfg s.tx d = out := InPhase.txOut_eq
    refine ⟨txOut s.cfg s.tx d, txstepWord (txOut s.cfg s.tx d) (txLast s.tx),
      fun h => hout (ph := .header) ⟨ha, h⟩ rfl, fun h => hout (ph := .type) ⟨ha, h⟩ rfl,
      fun h => hout (ph := .cmd) ⟨ha, h⟩ rfl, fun h => ?_, fun h => ?_,
      fun h5 h => hout (ph := .payload) ⟨ha, h5, h⟩ rfl, fun h => hout (ph := .cksum) ⟨ha, h⟩ rfl,
      fun h => hout (ph := .trailer) ⟨ha, h.ge⟩ rfl, ?_, ?_⟩
    · rw [hout (ph := .lenHi) ⟨ha, h⟩ rfl, hi8_toNat]
    · rw [hout (ph := .lenLo) ⟨ha, h⟩ rfl, lo8_toNat]
    · simp only [txstepWord_toNat, txLast, decide_eq_true_eq]
    · refine congrArg Host.Outcome.next ?_
      rw [txStep_of_busy d ha, txAdvance_eq ha]
      rfl

/-- Before the trailer a TXSTEP answers the byte of the phase and goes one index on (R91, R93). -/
theorem InPhase.txStep_next {s : State} {d out : Byte} {ph : TxPhase} (h : InPhase s.tx ph)
    (hb : phaseByte s.cfg s.tx d ph = some out) (ha : s.tx.active = true)
    (hi : s.tx.idx.toNat < 6 + s.tx.len.toNat) :
    (txStep d s).answers = [.ok (out.setWidth 32)] ∧ (txStep d s).tx.active = true ∧
      (txStep d s).tx.idx.toNat = s.tx.idx.toNat + 1 ∧
      (txStep d s).tx.len.toNat = s.tx.len.toNat := by
  have := s.tx.len.isLt
  rw [txStep_of_busy d ha, h.txOut_eq hb, txAdvance_eq ha, txLast, decide_eq_false hi.ne,
    txstepWord_false, if_neg hi.ne]
  refine ⟨rfl, decide_eq_true hi.ne, ?_, rfl⟩
  rw [answer_tx, BitVec.toNat_ofNat]
  omega

/-- The trailer's TXSTEP answers the trailer with bit 8 set and ends the frame (R91, R93). -/
theorem txStep_trailer {s : State} (d : Byte) (ha : s.tx.active = true)
    (hi : s.tx.idx.toNat = 6 + s.tx.len.toNat) :
    (txStep d s).answers = [.ok (0x100#32 ||| s.cfg.trailer.setWidth 32)] ∧
      (txStep d s).tx.active = false := by
  have hout : txOut s.cfg s.tx d = s.cfg.trailer :=
    InPhase.txOut_eq (ph := .trailer) ⟨ha, hi.ge⟩ rfl
  rw [txStep_of_busy d ha, hout, txAdvance_eq ha, txLast, decide_eq_true hi, txstepWord_true]
  exact ⟨rfl, decide_eq_false (not_not_intro hi)⟩

/-- Settles O12: each phase fixes the index, up to the payload's extent; the step goes one on. -/
theorem txPhasesFollowTheTable : Obligations.TxPhasesFollowTheTable := by
  refine ⟨fun s t c l hidle ht => ?_, fun s t ht => ?_, fun s d hle => ⟨txStep d s, rfl, ?_⟩⟩
  · cases ht
    rw [txBegin_of_idle c l (txPhase_eq_iff.1 hidle)]
    rfl
  · cases ht
    rfl
  cases hph : txPhase s.tx <;> have h := txPhase_eq_iff.1 hph
  case idle =>
    rw [txStep_of_idle d h]
    exact ⟨rfl, hph⟩
  case trailer =>
    obtain ⟨ha, hi⟩ := h
    obtain ⟨hanswer, hend⟩ := txStep_trailer d ha (le_antisymm hle hi)
    exact ⟨hanswer, txPhase_eq_iff.2 hend⟩
  all_goals
    obtain ⟨ha, hi⟩ := h
    obtain ⟨hanswer, ha', hidx, hlen⟩ :=
      (txPhase_eq_iff.1 hph).txStep_next (d := d) rfl ha (by omega)
    refine ⟨hanswer, ?_⟩
  case header | type | cmd | lenHi | cksum => exact txPhase_eq_iff.2 ⟨ha', by omega⟩
  case lenLo | payload =>
    split_ifs
    · exact txPhase_eq_iff.2 ⟨ha', by omega, by omega⟩
    · exact txPhase_eq_iff.2 ⟨ha', by omega⟩

end Sys2Proof.Machine
end

section
/-! SUPPORT and PROOFS. The TX unit over whole runs of host operations (R52, R95): operations that
drive no transmit frame do not matter to it, and the driving ones emit `Encode(c, p)`; the encoded
bytes decode to what was encoded (R96). -/

namespace Sys2Proof.Machine

/-! ## The operations in between do not matter to the TX unit -/

/-- The answers of the operations that drive a transmit frame. -/
def drivenAnswers (ops : List Instr) (as : List Answer) : List Answer :=
  ((ops.zip as).filter fun x => x.1.drivesTx).map Prod.snd

theorem drivenAnswers_cons_drives {i : Instr} (h : i.drivesTx = true) (ops : List Instr)
    (a : Answer) (as : List Answer) :
    drivenAnswers (i :: ops) (a :: as) = a :: drivenAnswers ops as := by
  simp [drivenAnswers, h]

theorem drivenAnswers_cons_other {i : Instr} (h : i.drivesTx = false) (ops : List Instr)
    (a : Answer) (as : List Answer) :
    drivenAnswers (i :: ops) (a :: as) = drivenAnswers ops as := by
  simp [drivenAnswers, h]

theorem unit?_of_drivesTx {i : Instr} (h : i.drivesTx = true) : i.unit? = some .tx := by
  rcases drivesTx_eq_true h with ⟨_, _, rfl⟩ | ⟨_, rfl⟩ <;> rfl

/-- A run without RESET gives the TX unit the registers, and its driving operations the answers,
that the driving operations alone give from any state with the same configuration and TX registers
(R52). -/
theorem issueAll_filter_drivesTx : ∀ {ops : List Instr} {s s' t : State} {as : List Answer},
    (∀ i ∈ ops, i.isHostOp = true ∧ i ≠ .reset) → s'.cfg = s.cfg → s'.tx = s.tx →
    issueAll ops s = some (t, as) →
    ∃ t', issueAll (ops.filter Instr.drivesTx) s' = some (t', drivenAnswers ops as) ∧ t'.tx = t.tx
  | [], s, s', t, as, _, _, htx, ht => by
    cases ht
    exact ⟨s', rfl, htx⟩
  | i :: is, s, s', t, as, hops, hcfg, htx, ht => by
    obtain ⟨hi, hr⟩ := hops i List.mem_cons_self
    have his : ∀ j ∈ is, j.isHostOp = true ∧ j ≠ .reset :=
      fun j hj => hops j (List.mem_cons_of_mem _ hj)
    obtain ⟨u, bs, hx, hrest, rfl⟩ := issueAll_cons_inv ht
    cases hd : i.drivesTx with
    | false =>
      obtain ⟨hcu, _, htu, _⟩ := exec_host_units hi hx
      obtain ⟨_, a, hx', ha⟩ := exec_host_next hi s
      cases hx.symm.trans hx'
      rw [List.filter_cons_of_neg (by simp [hd]), ha, List.singleton_append,
        drivenAnswers_cons_other hd]
      exact issueAll_filter_drivesTx his (hcfg.trans hcu.symm) (htx.trans (htu hd hr).symm) hrest
    | true =>
      obtain ⟨tx, a, hlocal⟩ := exec_tx_local (unit?_of_drivesTx hd) s.cfg s.tx
      cases hx.symm.trans (hlocal s rfl rfl)
      obtain ⟨t', ht', htx'⟩ := issueAll_filter_drivesTx (s := conclude a { s with tx := tx })
        (s' := conclude a { s' with tx := tx }) his hcfg rfl hrest
      refine ⟨t', ?_, htx'⟩
      rw [List.filter_cons_of_pos hd]
      exact (issueAll_cons (hlocal s' hcfg htx) ht').trans
        (congrArg (fun x => some (t', x)) (drivenAnswers_cons_drives hd is a bs).symm)

/-! ## The driving operations emit the frame -/

/-- The TXSTEPs from index `i` on emit the rest of the frame, whatever operands they have outside
the payload (R93, R95). -/
theorem issueAll_txSteps {p ds : List Byte} (c : Byte) (hp : p.length ≤ maxPayload)
    (hlen : ds.length = p.length + 7) (hpay : (ds.drop 5).take p.length = p) {i : Nat}
    (hi : i ≤ p.length + 7) : ∀ s : State, s.tx = txAt s.cfg c p i →
      ∃ t, issueAll ((ds.drop i).map .txstep) s =
          some (t, (List.range' i (p.length + 7 - i)).map (txAnswer s.cfg c p)) ∧
        t.tx = txAt s.cfg c p (p.length + 7) := by
  induction hi using Nat.decreasingInduction with
  | self =>
    intro s htx
    rw [List.drop_eq_nil_of_le hlen.le, Nat.sub_self]
    exact ⟨s, rfl, htx⟩
  | of_succ i hi ih =>
    intro s htx
    have hpayload : 5 ≤ i → i < 5 + p.length → ds[i] = p.getD (i - 5) 0 := fun h5 h => by
      have hbyte : ((ds.drop 5).take p.length)[i - 5]? = some ds[i] := by
        rw [List.getElem?_take_of_lt (by omega), List.getElem?_drop, Nat.add_sub_cancel' h5,
          List.getElem?_eq_getElem]
      rw [hpay] at hbyte
      rw [List.getD_eq_getElem?_getD, hbyte, Option.getD_some]
    have hstep := txStep_txAt hp hi htx hpayload
    obtain ⟨t, ht, hdone⟩ := ih (txStep ds[i] s) (by rw [hstep])
    refine ⟨t, ?_, by rw [hdone, hstep]⟩
    rw [List.drop_eq_getElem_cons (by omega), List.map_cons, issueAll_cons rfl ht, hstep,
      show p.length + 7 - i = p.length + 7 - (i + 1) + 1 by omega, List.range'_succ]
    rfl

/-- TXBEGIN and the TXSTEPs of a frame, from an idle unit, answer the bytes of `Encode(c, p)` and
leave the unit with the whole frame emitted (R95). -/
theorem issueAll_txFrame {s : State} {p ds : List Byte} (c : Byte) (hidle : s.tx.active = false)
    (hp : p.length ≤ maxPayload) (hlen : ds.length = p.length + 7)
    (hpay : (ds.drop 5).take p.length = p) :
    ∃ t, issueAll (.txbegin c (BitVec.ofNat 16 p.length) :: ds.map .txstep) s =
        some (t, encodeAnswers s.cfg c p) ∧
      t.tx = txAt s.cfg c p (p.length + 7) := by
  have hbegin : exec (.txbegin c (BitVec.ofNat 16 p.length)) s =
      .next (answer 0 { s with tx := txAt s.cfg c p 0 }) := by
    refine congrArg Host.Outcome.next ((txBegin_of_idle c _ hidle).trans ?_)
    simp [txAt, sum8]
  obtain ⟨t, ht, htx⟩ := issueAll_txSteps c hp hlen hpay (Nat.zero_le _)
    (answer 0 { s with tx := txAt s.cfg c p 0 }) rfl
  rw [List.drop_zero, Nat.sub_zero, ← List.range_eq_range'] at ht
  refine ⟨t, ?_, htx⟩
  rw [issueAll_cons hbegin ht, ← map_txAnswer]
  rfl

/-- Settles O15: the run is, to the TX unit, its driving operations alone, and those emit the
frame. -/
theorem txUnitEmitsEncode : Obligations.TxUnitEmitsEncode := by
  intro s ops c p ds hidle hp hops hf hlen hpay
  obtain ⟨t, as, ht, has⟩ := issueAll_host ops s fun i hi => (hops i hi).1
  obtain ⟨u, hu, hut⟩ := issueAll_filter_drivesTx hops rfl rfl ht
  obtain ⟨v, hv, hvx⟩ := issueAll_txFrame c hidle hp hlen hpay
  rw [hf, hv, Option.some.injEq, Prod.mk.injEq] at hu
  obtain ⟨rfl, hanswers⟩ := hu
  have hdone : t.tx = txAt s.cfg c p (p.length + 7) := hut.symm.trans hvx
  refine ⟨t, as, ht, has, hanswers.symm, ?_, ?_⟩ <;> rw [hdone, txAt]
  · exact decide_eq_false (lt_irrefl _)
  · exact if_neg (lt_irrefl _)

/-! ## Decode of encode -/

theorem filter_writesRx_pushes (b : List Byte) :
    (b.map Instr.rxpush).filter Instr.writesRx = b.map .rxpush := by
  refine List.filter_eq_self.2 fun i hi => ?_
  obtain ⟨x, _, rfl⟩ := List.mem_map.1 hi
  rfl

/-- Settles O39: the RX unit holds the pushed frame, hence its fields, and its verdict is that of
`Decode`. -/
theorem roundTrip : Obligations.RoundTrip := by
  intro cfg c p hp
  have hdecode := frameDecode_frameBytes cfg cfg.typeByte c hp
  refine ⟨hdecode, fun s hcfg => ?_⟩
  have hops : ∀ i ∈ Instr.rxclr :: (frameEncode cfg c p).map .rxpush, i.isHostOp = true := by
    simp [Instr.isHostOp]
  obtain ⟨t, as, ht, _⟩ := issueAll_host _ s hops
  have hholds : HoldsRun cfg (frameBytes cfg cfg.typeByte c p) t.rx t.pay :=
    holdsRun_of_issueAll hops (.inl rfl)
      (congrArg (List.cons Instr.rxclr) (filter_writesRx_pushes _)) hcfg ht
  have hcfg' : t.cfg = cfg := issueAll_keeps (P := fun u => u.cfg = cfg)
    (fun i hi _ _ hx hu => (exec_host_units (hops i hi) hx).1.trans hu) ht hcfg
  have hverdict : verdict t = none := by
    rw [verdict, hcfg', hholds.decodeErrorOf_eq, runVerdict, hdecode]
  obtain ⟨_, hpayload⟩ := hholds.payload hp
  refine ⟨t, as, ht, hverdict, ?_, ?_, ?_, hpayload⟩ <;> rw [hholds.rx_eq hp]
  rw [BitVec.toNat_ofNat]
  exact Nat.mod_eq_of_lt (Nat.lt_succ_of_le hp)

end Sys2Proof.Machine
end

section
/-! SUPPORT and PROOFS. `Decode` and the RX verdict (R110, R120): the eight tests that both make,
each verdict by its cause, and the RX unit as the refinement of `Decode` (R126). -/

namespace Sys2Proof.Machine

/-! ## The eight tests -/

section tests
variable (n len : Nat) (header trailer sum : Prop)

/-- The tests that R110 makes on a run and R120 on the registers, in their order: of `n` bytes that
declare the length `len`, with the right header, trailer and checksum or not. -/
def testVerdict [Decidable header] [Decidable trailer] [Decidable sum] : Option DecodeError :=
  if n = 0 then some .incomplete
  else if ¬ header then some .badMarker
  else if n < 5 then some .incomplete
  else if n < len + 7 then some .incomplete
  else if ¬ trailer then some .badMarker
  else if n ≠ len + 7 then some .lengthMismatch
  else if ¬ sum then some .checksumMismatch
  else none

/-- What each verdict says, free of the tests' order. -/
def VerdictCause : Option DecodeError → Prop
  | some .incomplete => n = 0 ∨ (header ∧ n < len + 7)
  | some .badMarker => n ≠ 0 ∧ (¬ header ∨ (len + 7 ≤ n ∧ ¬ trailer))
  | some .lengthMismatch => header ∧ len + 7 < n ∧ trailer
  | some .checksumMismatch => header ∧ n = len + 7 ∧ trailer ∧ ¬ sum
  | none => header ∧ n = len + 7 ∧ trailer ∧ sum

/-- The tests find a cause of their verdict. -/
theorem verdictCause_testVerdict [Decidable header] [Decidable trailer] [Decidable sum] :
    VerdictCause n len header trailer sum (testVerdict n len header trailer sum) := by
  rw [testVerdict]
  split_ifs with h0 hh h5 hl ht hn hs
  · exact .inl h0
  · exact .inr ⟨hh, by omega⟩
  · exact .inr ⟨hh, hl⟩
  · exact ⟨hh, by omega, ht⟩
  · exact ⟨hh, not_not.1 hn, ht, hs⟩
  · exact ⟨hh, not_not.1 hn, ht, hs⟩
  · exact ⟨h0, .inr ⟨by omega, ht⟩⟩
  · exact ⟨h0, .inl hh⟩

/-- The five causes exclude each other. -/
theorem VerdictCause.unique {n len : Nat} {header trailer sum : Prop} {v w : Option DecodeError}
    (hv : VerdictCause n len header trailer sum v) (hw : VerdictCause n len header trailer sum w) :
    v = w := by
  rcases v with _ | _ | _ | _ | _ <;> rcases w with _ | _ | _ | _ | _ <;> grind [VerdictCause]

theorem testVerdict_eq_iff [Decidable header] [Decidable trailer] [Decidable sum]
    (v : Option DecodeError) :
    testVerdict n len header trailer sum = v ↔ VerdictCause n len header trailer sum v :=
  ⟨fun h => h ▸ verdictCause_testVerdict n len header trailer sum,
    (verdictCause_testVerdict n len header trailer sum).unique⟩

end tests

/-- The cause of a verdict of the RX registers (R120). -/
abbrev RxCause (cfg : Config) (rx : Rx) : Option DecodeError → Prop :=
  VerdictCause rx.count.toNat rx.len.toNat (rx.hdrOk = true) (rx.last = cfg.trailer)
    (rx.sum = rx.ck)

/-- The cause of a verdict of a run (R110). -/
abbrev RunCause (cfg : Config) (b : List Byte) : Option DecodeError → Prop :=
  VerdictCause b.length (be16 (b.getD 3 0) (b.getD 4 0)) (b.getD 0 0 = cfg.header)
    (b.getD (b.length - 1) 0 = cfg.trailer)
    (sum8 ((b.drop 1).take (4 + be16 (b.getD 3 0) (b.getD 4 0))) =
      b.getD (5 + be16 (b.getD 3 0) (b.getD 4 0)) 0)

theorem decodeErrorOf_eq_iff {cfg : Config} {rx : Rx} {v : Option DecodeError} :
    decodeErrorOf cfg rx = v ↔ RxCause cfg rx v := by
  rw [RxCause, ← testVerdict_eq_iff, decodeErrorOf, testVerdict]
  simp only [Bool.not_eq_true, ne_eq]

theorem runVerdict_eq_iff {cfg : Config} {b : List Byte} {v : Option DecodeError} :
    runVerdict cfg b = v ↔ RunCause cfg b v := by
  rw [RunCause, ← testVerdict_eq_iff, runVerdict_eq, testVerdict]

/-- `Decode` gives an error exactly on its cause. -/
theorem frameDecode_eq_error_iff {cfg : Config} {b : List Byte} {e : DecodeError} :
    frameDecode cfg b = .error e ↔ RunCause cfg b (some e) := by
  rw [← runVerdict_eq_iff, runVerdict]
  cases frameDecode cfg b <;> simp

end Sys2Proof.Machine
end

section
/-! SUPPORT and PROOFS. `Decode` of a frame, whole, cut short, followed by more bytes or with a byte
changed (R111 to R117), and the RX unit as the refinement of `Decode` (R126). -/

namespace Sys2Proof

/-! ## Decode of a frame -/

theorem frameDecode_eq_ok_iff {cfg : Config} {b : List Byte} {f : Frame} :
    frameDecode cfg b = .ok f ↔
      f.payload.length ≤ maxPayload ∧ b = frameBytes cfg f.type f.command f.payload :=
  ⟨fun h => ⟨Machine.frameDecode_payload_length h, eq_frameBytes_of_frameDecode h⟩,
    fun ⟨hp, hb⟩ => hb ▸ frameDecode_frameBytes cfg f.type f.command hp⟩

/-- The length bytes of a frame declare the length of its payload (R61). -/
theorem frameBytes_declared (cfg : Config) (t c : Byte) {p : List Byte}
    (hp : p.length ≤ maxPayload) :
    be16 ((frameBytes cfg t c p).getD 3 0) ((frameBytes cfg t c p).getD 4 0) = p.length := by
  obtain ⟨_, _, _, hhi, hlo⟩ := frameBytes_head cfg t c p
  rw [hhi, hlo, be16_payload_length hp]

/-- Settles O38: the frame that decodes has its fields at their indices. -/
theorem decodeIsExact : Obligations.DecodeIsExact := by
  intro cfg b f
  refine ⟨frameDecode_eq_ok_iff, fun h => ?_⟩
  obtain ⟨hp, rfl⟩ := frameDecode_eq_ok_iff.1 h
  obtain ⟨_, htype, hcmd, _⟩ := frameBytes_head cfg f.type f.command f.payload
  refine ⟨htype.symm, hcmd.symm, ?_, (frameBytes_declared cfg _ _ hp).symm⟩
  rw [frameBytes_length, Nat.add_sub_cancel]
  simp [frameBytes, frameSpan]

/-- Settles O40: a bad header is a cause of `BadMarker` at every length. -/
theorem headerIsTestedFirst : Obligations.HeaderIsTestedFirst := by
  intro cfg b hb
  have hlength : b.length ≠ 0 := fun h => hb (List.length_eq_zero_iff.1 h)
  refine ⟨fun hheader => Machine.frameDecode_eq_error_iff.2 ⟨hlength, .inl hheader⟩, fun h => ?_⟩
  rcases Machine.frameDecode_eq_error_iff.1 h with h0 | ⟨hheader, _⟩
  · exact absurd h0 hlength
  · exact hheader

/-- Settles O41: a run shorter than its head is shorter than what it declares, whatever that is. -/
theorem incompleteExactlyWhen : Obligations.IncompleteExactlyWhen := by
  intro cfg b
  rw [Machine.frameDecode_eq_error_iff]
  refine or_congr List.length_eq_zero_iff (and_congr_right fun _ => ?_)
  omega

/-- Settles O43: with its head there, a prefix declares the length of the whole frame. -/
theorem prefixesAreIncomplete : Obligations.PrefixesAreIncomplete := by
  intro cfg t c p k hp hk
  obtain ⟨hheader, _⟩ := frameBytes_head cfg t c p
  have hlength : ((frameBytes cfg t c p).take k).length = k := by
    rw [List.length_take, frameBytes_length]
    omega
  have hbyte : ∀ i < k,
      ((frameBytes cfg t c p).take k).getD i 0 = (frameBytes cfg t c p).getD i 0 := fun i hi => by
    rw [List.getD_eq_getElem?_getD, List.getElem?_take_of_lt hi, List.getD_eq_getElem?_getD]
  rw [Machine.frameDecode_eq_error_iff]
  rcases Nat.eq_zero_or_pos k with h0 | h0
  · exact .inl (hlength.trans h0)
  · refine .inr ⟨(hbyte 0 h0).trans hheader, ?_⟩
    rw [hlength]
    by_cases h5 : k < 5
    · omega
    · rwa [hbyte 3 (by omega), hbyte 4 (by omega), frameBytes_declared cfg t c hp]

/-- Settles O44: the run has the frame's head, more bytes than it declares, and `x`'s last byte. -/
theorem bytesAfterAFrame : Obligations.BytesAfterAFrame := by
  intro cfg t c p x hp hx
  have hpos := List.length_pos_iff.2 hx
  have hlength : (frameBytes cfg t c p ++ x).length = p.length + 7 + x.length := by
    rw [List.length_append, frameBytes_length]
  have hbyte : ∀ i < 7,
      (frameBytes cfg t c p ++ x).getD i 0 = (frameBytes cfg t c p).getD i 0 := fun i hi =>
    List.getD_append _ _ _ _ (by rw [frameBytes_length]; omega)
  have hheader : (frameBytes cfg t c p ++ x).getD 0 0 = cfg.header :=
    (hbyte 0 (by omega)).trans (frameBytes_head cfg t c p).1
  have hdeclared : be16 ((frameBytes cfg t c p ++ x).getD 3 0)
      ((frameBytes cfg t c p ++ x).getD 4 0) = p.length := by
    rw [hbyte 3 (by omega), hbyte 4 (by omega), frameBytes_declared cfg t c hp]
  have hlast : (frameBytes cfg t c p ++ x).getD ((frameBytes cfg t c p ++ x).length - 1) 0 =
      x.getD (x.length - 1) 0 := by
    rw [hlength, List.getD_append_right _ _ _ _ (by rw [frameBytes_length]; omega),
      frameBytes_length]
    congr 1
    omega
  rw [Machine.frameDecode_eq_error_iff, Machine.RunCause, hlast, hdeclared, hlength]
  split_ifs with ht
  · exact ⟨hheader, by omega, ht⟩
  · exact ⟨by omega, .inr ⟨by omega, ht⟩⟩

/-! ## A byte changed -/

theorem getD_set_self {l : List Byte} {i : Nat} (hi : i < l.length) (v : Byte) :
    (l.set i v).getD i 0 = v := by
  rw [List.getD_eq_getElem?_getD, List.getElem?_set_self hi, Option.getD_some]

theorem getD_set_ne (l : List Byte) {i k : Nat} (h : i ≠ k) (v : Byte) :
    (l.set i v).getD k 0 = l.getD k 0 := by
  rw [List.getD_eq_getElem?_getD, List.getElem?_set_ne h, List.getD_eq_getElem?_getD]

/-- One byte changed changes the sum (R62). -/
theorem sum8_set_ne {v : Byte} : ∀ {l : List Byte} {i : Nat}, i < l.length → v ≠ l.getD i 0 →
    sum8 (l.set i v) ≠ sum8 l
  | _ :: l, 0, _, hv => fun h => hv ((BitVec.add_left_inj (sum8 l)).1 h)
  | x :: _, _ + 1, hi, hv => fun h =>
    sum8_set_ne (Nat.lt_of_succ_lt_succ hi) hv ((BitVec.add_right_inj x).1 h)

/-- The two length bytes are the only ones that declare their length. -/
theorem be16_inj {h l h' l' : Byte} (e : be16 h l = be16 h' l') : h = h' ∧ l = l' := by
  have := l.isLt
  have := l'.isLt
  rw [be16, be16] at e
  exact ⟨BitVec.eq_of_toNat_eq (by omega), BitVec.eq_of_toNat_eq (by omega)⟩

theorem xor_bit_ne (x : Byte) {j : Nat} (hj : j < 8) : x ^^^ (1#8 <<< j) ≠ x := by
  have hbit : ∀ j < 8, 1#8 <<< j ≠ 0#8 := by decide
  exact fun h => hbit j hj (xor_left_eq_self_iff.1 h)

/-- The last byte of a frame, as `Decode` finds it. -/
theorem frameBytes_last (cfg : Config) (t c : Byte) (p : List Byte) :
    (frameBytes cfg t c p).getD (p.length + 7 - 1) 0 = cfg.trailer := by
  rw [show p.length + 7 - 1 = 6 + p.length by omega, frameBytes_trailer]

/-- The summed bytes of a frame stand one place behind their index (R60, R62). -/
theorem frameSpan_getD (cfg : Config) (t c : Byte) (p : List Byte) {i : Nat}
    (hi : i < 4 + p.length) :
    (frameSpan t c p).getD i 0 = (frameBytes cfg t c p).getD (i + 1) 0 := by
  rw [frameBytes, List.append_assoc, List.singleton_append, List.getD_cons_succ,
    List.getD_append _ _ _ _ (by rw [frameSpan_length]; omega)]

section corruption
variable (cfg : Config) (t c : Byte) {p : List Byte} (hp : p.length ≤ maxPayload) {i : Nat}
  {v : Byte}

/-- With its first byte changed a frame has no header. -/
theorem frameDecode_set_header (hv : v ≠ cfg.header) :
    frameDecode cfg ((frameBytes cfg t c p).set 0 v) = .error .badMarker := by
  rw [Machine.frameDecode_eq_error_iff, Machine.RunCause, List.length_set, frameBytes_length,
    getD_set_self (by rw [frameBytes_length]; omega)]
  exact ⟨by omega, .inl hv⟩

/-- A changed byte from the type byte to the checksum makes sum and checksum differ: a summed byte
changes the sum alone, the checksum byte itself only. -/
theorem sum8_ne_checksum_set (h1 : 1 ≤ i) (hi : i < 6 + p.length)
    (hv : v ≠ (frameBytes cfg t c p).getD i 0) :
    sum8 ((((frameBytes cfg t c p).set i v).drop 1).take (4 + p.length)) ≠
      ((frameBytes cfg t c p).set i v).getD (5 + p.length) 0 := by
  have hlength := frameSpan_length t c p
  rw [List.drop_set, if_neg (by omega), List.take_set, frameBytes_span]
  by_cases hck : i = 5 + p.length
  · rw [List.set_eq_of_length_le (by omega), hck,
      getD_set_self (by rw [frameBytes_length]; omega), ← frameBytes_checksum cfg, ← hck]
    exact hv.symm
  · rw [getD_set_ne _ hck, frameBytes_checksum]
    refine sum8_set_ne (by omega) ?_
    rwa [frameSpan_getD cfg t c p (by omega), Nat.sub_add_cancel h1]

include hp

/-- Outside its length bytes a changed frame declares the same length. -/
theorem declared_set (h3 : i ≠ 3) (h4 : i ≠ 4) : be16 (((frameBytes cfg t c p).set i v).getD 3 0)
    (((frameBytes cfg t c p).set i v).getD 4 0) = p.length := by
  rw [getD_set_ne _ h3, getD_set_ne _ h4, frameBytes_declared cfg t c hp]

/-- With its last byte changed a frame has no trailer. -/
theorem frameDecode_set_trailer (hv : v ≠ cfg.trailer) :
    frameDecode cfg ((frameBytes cfg t c p).set (6 + p.length) v) = .error .badMarker := by
  rw [Machine.frameDecode_eq_error_iff, Machine.RunCause,
    declared_set cfg t c hp (by omega) (by omega), List.length_set, frameBytes_length,
    show p.length + 7 - 1 = 6 + p.length by omega,
    getD_set_self (by rw [frameBytes_length]; omega)]
  exact ⟨by omega, .inr ⟨le_rfl, hv⟩⟩

/-- With a byte that is neither marker nor length changed, only the checksum test fails. -/
theorem frameDecode_set_summed (h1 : 1 ≤ i) (h3 : i ≠ 3) (h4 : i ≠ 4) (hi : i < 6 + p.length)
    (hv : v ≠ (frameBytes cfg t c p).getD i 0) :
    frameDecode cfg ((frameBytes cfg t c p).set i v) = .error .checksumMismatch := by
  obtain ⟨hheader, _⟩ := frameBytes_head cfg t c p
  rw [Machine.frameDecode_eq_error_iff, Machine.RunCause, declared_set cfg t c hp h3 h4,
    List.length_set, frameBytes_length, getD_set_ne _ (by omega),
    getD_set_ne _ (by omega), frameBytes_last]
  exact ⟨hheader, rfl, rfl, sum8_ne_checksum_set cfg t c h1 hi hv⟩

/-- With a length byte changed a frame declares another length, and header and trailer stand. -/
theorem frameDecode_set_length (h : i = 3 ∨ i = 4) (hv : v ≠ (frameBytes cfg t c p).getD i 0)
    {n : Nat} (hn : be16 (((frameBytes cfg t c p).set i v).getD 3 0)
      (((frameBytes cfg t c p).set i v).getD 4 0) = n) :
    (p.length < n → frameDecode cfg ((frameBytes cfg t c p).set i v) = .error .incomplete) ∧
    (n < p.length → frameDecode cfg ((frameBytes cfg t c p).set i v) = .error .lengthMismatch) ∧
    n ≠ p.length := by
  have hlength := frameBytes_length cfg t c p
  obtain ⟨hheader, _⟩ := frameBytes_head cfg t c p
  simp only [Machine.frameDecode_eq_error_iff, Machine.RunCause, hn, List.length_set]
  refine ⟨fun hlt => .inr ⟨?_, by omega⟩, fun hlt => ⟨?_, by omega, ?_⟩, fun e => ?_⟩
  · rwa [getD_set_ne _ (by omega)]
  · rwa [getD_set_ne _ (by omega)]
  · rw [getD_set_ne _ (by omega), hlength, frameBytes_last]
  · obtain ⟨hhi, hlo⟩ := be16_inj (hn.trans (e.trans (frameBytes_declared cfg t c hp).symm))
    rcases h with rfl | rfl
    · rw [getD_set_self (by omega)] at hhi
      exact hv hhi
    · rw [getD_set_self (by omega)] at hlo
      exact hv hlo

end corruption

/-- Settles O42: an inverted bit changes the byte, and each place has its lemma. -/
theorem singleBitCorruption : Obligations.SingleBitCorruption := by
  intro cfg t c p i j hp hi hj
  have hv := xor_bit_ne ((frameBytes cfg t c p).getD i 0) hj
  refine ⟨?_, fun h => ?_, fun h => frameDecode_set_length cfg t c hp h hv rfl, fun h5 h6 => ?_, ?_⟩
  · rintro rfl
    exact frameDecode_set_header cfg t c (by rwa [(frameBytes_head cfg t c p).1] at hv ⊢)
  · exact frameDecode_set_summed cfg t c hp (by omega) (by omega) (by omega) (by omega) hv
  · exact frameDecode_set_summed cfg t c hp (by omega) (by omega) (by omega) h6 hv
  · rintro rfl
    exact frameDecode_set_trailer cfg t c hp (by rwa [frameBytes_trailer] at hv ⊢)

namespace Machine

/-! ## The RX unit refines Decode -/

theorem issueAll_host_cfg {ops : List Instr} {s t : State} {as : List Answer}
    (hops : ∀ i ∈ ops, i.isHostOp = true) (h : issueAll ops s = some (t, as)) : t.cfg = s.cfg :=
  issueAll_keeps (P := fun u => u.cfg = s.cfg)
    (fun i hi _ _ hx hu => (exec_host_units (hops i hi) hx).1.trans hu) h rfl

theorem rxGet_of_ok {s : State} {k : Half} (hv : verdict s = none)
    (hk : k.toNat < s.rx.len.toNat) :
    rxGet k s = answer ((payRead s.pay k.toNat).setWidth 32) s := by
  rw [← byteWord_eq_setWidth]
  exact (if_pos hv).trans (if_pos hk)

/-- Settles O23: the registers hold the run, so their verdict is the run's, and a run that decodes
is the frame that they show. -/
theorem rxVerdictIsDecodeOfTheRun : Obligations.RxVerdictIsDecodeOfTheRun := by
  intro s ops first b hi hfirst hf
  obtain ⟨t, as, ht, _⟩ := issueAll_host ops s hi
  have hholds := holdsRun_of_issueAll hi hfirst hf rfl ht
  have hverdict : verdict t = runVerdict s.cfg b := by
    rw [verdict, issueAll_host_cfg hi ht, hholds.decodeErrorOf_eq]
  refine ⟨t, as, ht, hverdict, fun f hd => ?_⟩
  obtain ⟨hp, rfl⟩ := frameDecode_eq_ok_iff.1 hd
  have hok : verdict t = none := by rw [hverdict, runVerdict, hd]
  obtain ⟨hstored, hpayload⟩ := hholds.payload hp
  have hlen : t.rx.len.toNat = f.payload.length := by rw [← rxStored_of_verdict_ok hok, hstored]
  refine ⟨by rw [hholds.rx_eq hp], by rw [hholds.rx_eq hp], hlen, fun k hk => ?_⟩
  rw [← hpayload k.toNat hk]
  exact congrArg Host.Outcome.next (rxGet_of_ok hok (by rwa [hlen]))

end Machine

end Sys2Proof
end

section
/-! SUPPORT and PROOFS. The RX unit's operations one by one (R121 to R125), and the verdicts along
one run of pushes (R127). -/

namespace Sys2Proof.Machine

/-! ## The verdict -/

/-- Settles O18: the tests on the registers come to the causes. -/
theorem verdictsByTheirCauses : Obligations.VerdictsByTheirCauses := by
  intro s n len
  have hcause : ∀ v, verdict s = v ↔ RxCause s.cfg s.rx v := fun _ => decodeErrorOf_eq_iff
  refine ⟨hcause _, (hcause _).trans ?_, hcause _, hcause _, hcause _⟩
  rw [RxCause, VerdictCause, Bool.not_eq_true]

theorem decodeErrorOf_ne_incomplete_iff {cfg : Config} {rx : Rx} :
    decodeErrorOf cfg rx ≠ some .incomplete ↔
      rx.count.toNat ≠ 0 ∧ (rx.hdrOk = true → rx.len.toNat + 7 ≤ rx.count.toNat) := by
  rw [Ne, decodeErrorOf_eq_iff, RxCause, VerdictCause, not_or, not_and, not_lt]

/-- Beyond the trailer a push only adds an extra byte, which may look like a trailer (R127 (b)). -/
theorem decodeErrorOf_rxNext {cfg : Config} {rx : Rx}
    (h : decodeErrorOf cfg rx ≠ some .incomplete) (b : Byte) :
    decodeErrorOf cfg (rxNext cfg rx b) = some (if rx.hdrOk = true ∧ b = cfg.trailer
      then .lengthMismatch else .badMarker) := by
  obtain ⟨h0, hlen⟩ := decodeErrorOf_ne_incomplete_iff.1 h
  have hhdr : (rxNext cfg rx b).hdrOk = rx.hdrOk := by rw [rxNext_hdrOk, if_neg h0]
  have hlong : rx.hdrOk = true →
      (rxNext cfg rx b).len.toNat + 7 < (rxNext cfg rx b).count.toNat := fun hok => by
    have := hlen hok
    have := rx.len.isLt
    rw [rxNext_len_of_five_le cfg b (by omega), rxNext_count]
    omega
  rw [decodeErrorOf_eq_iff]
  split_ifs with hb
  · exact ⟨hhdr.trans hb.1, hlong hb.1, hb.2⟩
  · refine ⟨rxNext_count_ne_zero cfg rx b, ?_⟩
    by_cases hok : rx.hdrOk = true
    · exact .inr ⟨(hlong hok).le, fun ht => hb ⟨hok, ht⟩⟩
    · exact .inl (by rwa [hhdr])

/-- The push that ends `Incomplete` on a good header is the one at index `rx_len + 6` (R127 (c)). -/
theorem rxNext_count_of_incomplete {cfg : Config} {rx : Rx} {b : Byte}
    (h : decodeErrorOf cfg rx = some .incomplete) (hok : (rxNext cfg rx b).hdrOk = true)
    (h' : decodeErrorOf cfg (rxNext cfg rx b) ≠ some .incomplete) :
    (rxNext cfg rx b).count.toNat = (rxNext cfg rx b).len.toNat + 7 := by
  have hlong := (decodeErrorOf_ne_incomplete_iff.1 h').2 hok
  have hcount := rxNext_count cfg rx b
  rw [rxNext_len_of_five_le cfg b (by omega)] at hlong ⊢
  have hshort : rx.count.toNat < rx.len.toNat + 7 := by
    rcases decodeErrorOf_eq_iff.1 h with h0 | ⟨_, hlt⟩ <;> omega
  omega

/-- At the length that the run declares, `LengthMismatch` has no cause (R127 (c)). -/
theorem decodeErrorOf_of_count_eq {cfg : Config} {rx : Rx}
    (h : rx.count.toNat = rx.len.toNat + 7) (h' : decodeErrorOf cfg rx ≠ some .incomplete) :
    decodeErrorOf cfg rx = none ∨ decodeErrorOf cfg rx = some .badMarker ∨
      decodeErrorOf cfg rx = some .checksumMismatch := by
  rcases hv : decodeErrorOf cfg rx with _ | _ | _ | _ | _
  case some.incomplete => exact absurd hv h'
  case some.lengthMismatch =>
    obtain ⟨_, hlong, _⟩ := decodeErrorOf_eq_iff.1 hv
    omega
  all_goals simp

theorem verdict_rxPush (b : Byte) (s : State) :
    verdict (rxPush b s) = decodeErrorOf s.cfg (rxNext s.cfg s.rx b) := rfl

/-- Once the verdict is not `Incomplete`, a push makes it one of two. -/
theorem verdict_rxPush_mem {s : State} (h : verdict s ≠ some .incomplete) (b : Byte) :
    verdict (rxPush b s) = some .badMarker ∨ verdict (rxPush b s) = some .lengthMismatch := by
  rw [verdict_rxPush, decodeErrorOf_rxNext h]
  split_ifs
  · exact .inr rfl
  · exact .inl rfl

/-- Settles O24: a push by the verdict that it finds; after the first the others keep to two. -/
theorem verdictsAlongOneRun : Obligations.VerdictsAlongOneRun := by
  refine ⟨fun s t b ht => ?_, fun s bs hbs h => ?_⟩
  · cases ht
    refine ⟨fun h => decodeErrorOf_rxNext h b, fun h hok h' => ?_⟩
    have hcount := rxNext_count_of_incomplete h hok h'
    exact ⟨hcount, decodeErrorOf_of_count_eq hcount h'⟩
  · obtain ⟨b, bs, rfl⟩ := List.exists_cons_of_ne_nil hbs
    obtain ⟨t, as, ht, _⟩ := issueAll_host (bs.map .rxpush) (rxPush b s) (by simp [Instr.isHostOp])
    refine ⟨t, _, issueAll_cons rfl ht, issueAll_keeps (P := fun u => verdict u = some .badMarker ∨
      verdict u = some .lengthMismatch) ?_ ht (verdict_rxPush_mem h b)⟩
    intro i hi u v hx hu
    obtain ⟨x, _, rfl⟩ := List.mem_map.1 hi
    cases hx
    exact verdict_rxPush_mem (by rcases hu with e | e <;> simp [e]) x

/-! ## RXPUSH and RXCLR -/

/-- Settles O16: the state after a push, register by register. -/
theorem rxpushTakesTheNextByte : Obligations.RxpushTakesTheNextByte := by
  refine ⟨fun w hw => ?_, ?_⟩
  · obtain ⟨_, _, _, _, hpush, _⟩ := commandWordsDecodeByTheirFields w
    exact hpush hw
  intro s b n len
  have hhdr := rxNext_hdrOk s.cfg s.rx b
  have htype := rxNext_type s.cfg s.rx b
  have hcmd := rxNext_cmd s.cfg s.rx b
  have hlen := rxNext_len s.cfg s.rx b
  have hsum := rxNext_sum s.cfg s.rx b
  have hck := rxNext_ck s.cfg s.rx b
  refine ⟨rxPush b s, rfl, rfl, rfl, rfl, rfl, rfl, rfl, rxNext_count s.cfg s.rx b,
    fun h => hhdr.trans (if_pos h), fun h => hhdr.trans (if_neg h),
    fun h => ⟨htype.trans (if_pos h), ?_⟩, fun h => htype.trans (if_neg h),
    fun h => hcmd.trans (if_pos h), fun h => hcmd.trans (if_neg h),
    fun h => ?_, fun h => ?_, fun h3 h4 => ?_, fun h => ?_, fun h => ?_,
    fun h => hck.trans (if_pos h), fun h => hck.trans (if_neg h), fun h5 h => ?_, fun h k => ?_⟩
  · exact hsum.trans (by rw [if_neg (by omega), if_pos h])
  · change (rxNext s.cfg s.rx b).len.toNat = _
    rw [hlen, if_pos h, append_toNat, be16, lo8_toNat]
  · change (rxNext s.cfg s.rx b).len.toNat = _
    rw [hlen, if_neg (by omega), if_pos h, append_toNat, be16, hi8_toNat]
  · exact hlen.trans (by rw [if_neg h3, if_neg h4])
  · exact hsum.trans (by rw [if_neg (by omega), if_neg (by omega), if_pos (by omega)])
  · refine hsum.trans ?_
    rcases h with h | ⟨h5, h⟩
    · rw [if_pos h]
    · rw [if_neg (by omega), if_neg (by omega), if_neg (by omega)]
  · refine ⟨?_, fun k hk => payRead_rxStore_of_not fun hp => hk hp.2.2⟩
    change payRead (rxStore s.rx b s.pay) (n - 5) = b
    rw [payRead, rxStore_get, if_pos ⟨h5, h, rfl⟩, Option.getD_some]
  · exact payRead_rxStore_of_not fun hp => h ⟨hp.1, hp.2.1⟩

/-- Settles O17: the cleared registers hold no run, and RXSTAT's word of them is 0. -/
theorem rxclrDiscardsTheRun : Obligations.RxclrDiscardsTheRun := by
  refine ⟨fun w hw => ?_, fun _ => rfl, fun s t ht => ?_⟩
  · obtain ⟨_, _, _, _, _, hclr, _⟩ := commandWordsDecodeByTheirFields w
    exact hclr hw
  · cases ht
    have hverdict : verdict (rxClear s) = some .incomplete := decodeErrorOf_eq_iff.2 (.inl rfl)
    have hword : rxstatWord (some .incomplete) Rx.cleared.count = 0 := by decide
    refine ⟨hverdict, congrArg Host.Outcome.next ?_⟩
    rw [rxStat, hverdict]
    exact congrArg (fun r => answer r (rxClear s)) hword

/-! ## The reads -/

theorem rxstatWord_toNat (v : Option DecodeError) (n : Count) :
    (rxstatWord v n).toNat = (verdictCode v).toNat + 8 * n.toNat := by
  have := n.isLt
  have := (verdictCode v).isLt
  rw [rxstatWord_eq, BitVec.toNat_ofNat]
  omega

/-- Settles O19: the word of each verdict, by its code. -/
theorem rxstatReadsVerdictAndCount : Obligations.RxstatReadsVerdictAndCount := by
  refine ⟨fun w hw => ?_, fun s => ⟨rxstatWord (verdict s) s.rx.count, rfl, ?_⟩⟩
  · obtain ⟨_, _, _, _, _, _, hstat, _⟩ := commandWordsDecodeByTheirFields w
    exact hstat hw
  · have hword : ∀ {v}, verdict s = v → (rxstatWord (verdict s) s.rx.count).toNat =
        (verdictCode v).toNat + 8 * s.rx.count.toNat := fun h => h ▸ rxstatWord_toNat _ _
    exact ⟨hword, hword, hword, hword, hword⟩

/-- Settles O20: the two branches of RXHDR. -/
theorem rxhdrReadsTheHeader : Obligations.RxhdrReadsTheHeader := by
  refine ⟨fun w hw => ?_, fun s hv => ⟨rxhdrWord s.rx, ?_, rxhdrWord_toNat s.rx⟩, fun s hv => ?_⟩
  · obtain ⟨_, _, _, _, _, _, _, hhdr, _⟩ := commandWordsDecodeByTheirFields w
    exact hhdr hw
  · exact congrArg Host.Outcome.next (if_pos hv)
  · exact congrArg Host.Outcome.next (if_neg hv)

/-- Settles O21: RXGET answers exactly where it does not fault. -/
theorem rxgetReadsAPayloadByte : Obligations.RxgetReadsAPayloadByte := by
  refine ⟨fun w hw => ?_, fun s k hv hk => ?_, fun s k h => ?_⟩
  · obtain ⟨_, _, _, _, _, _, _, _, hget, _⟩ := commandWordsDecodeByTheirFields w
    exact hget hw
  · exact congrArg Host.Outcome.next (rxGet_of_ok hv hk)
  · refine congrArg Host.Outcome.next ?_
    rcases rxGet_cases k s with ⟨_, e⟩ | ⟨hv, hk, _⟩
    · exact e
    · rcases h with h | h
      · exact absurd hv h
      · omega

end Sys2Proof.Machine
end

section
/-! SUPPORT and PROOFS. The RSSI unit: the estimate is a table entry clamped to the band (R150), so
it is a signed byte, lies in the band and rises with the raw byte (R151, R152). -/

namespace Sys2Proof.Machine

/-! ## The estimate -/

/-- In a band that is not empty the order of `clamp`'s two tests does not matter. -/
theorem clamp_eq_max_min (v : Int) {lo hi : Int} (h : lo ≤ hi) :
    clamp v lo hi = max lo (min v hi) := by
  rw [clamp]
  split_ifs <;> omega

theorem clamp_mono {v w lo hi : Int} (h : lo ≤ hi) (hvw : v ≤ w) : clamp v lo hi ≤ clamp w lo hi := by
  rw [clamp_eq_max_min v h, clamp_eq_max_min w h]
  exact max_le_max_left lo (min_le_min_right hi hvw)

/-- R4 compares neighbouring entries of a table; hence any two of them. -/
theorem entry_mono {cfg : Config} (hv : cfg.Valid) (c : Curve) {a b : Byte}
    (hab : a.toNat ≤ b.toNat) : cfg.entry c a ≤ cfg.entry c b := by
  have hmono : MonotoneOn (fun n => cfg.entry c (BitVec.ofNat 8 n)) (Set.Iic 255) :=
    monotoneOn_of_le_succ Set.ordConnected_Iic fun n _ _ (hn : n + 1 ≤ 255) => by
      change _ ≤ cfg.entry c (BitVec.ofNat 8 (n + 1))
      rw [BitVec.ofNat_add]
      exact hv.monotone c _ (by rw [BitVec.toNat_ofNat]; omega)
  have hle := hmono (Nat.le_of_lt_succ a.isLt) (Nat.le_of_lt_succ b.isLt) hab
  simpa only [BitVec.ofNat_toNat, BitVec.setWidth_eq] using hle

/-- The table entry and both ends of the band are signed bytes, so the estimate is one (R150). -/
theorem exists_toInt_eq_estimate (cfg : Config) (raw : Byte) (c : Curve) :
    ∃ e : Byte, e.toInt = estimate cfg raw c := by
  rw [estimate, clamp]
  split_ifs
  · exact ⟨cfg.rssiMin, rfl⟩
  · exact ⟨cfg.rssiMax, rfl⟩
  · exact ⟨(cfg.table c)[raw.toNat]'raw.isLt, rfl⟩

/-- `tc8` loses nothing of a signed byte (R6). -/
@[simp] theorem tc8_toInt (e : Byte) : tc8 e.toInt = e := BitVec.ofInt_toInt

/-- Settles O28: `clamp` keeps to the band and keeps the order of the table, and the answer is one
for all states of a configuration. -/
theorem estimateLaws : Obligations.EstimateLaws := by
  refine ⟨fun cfg raw c hband => ?_, fun cfg a b c hv hab => ?_, fun s s' raw c hcfg => ?_⟩
  · rw [estimate, clamp_eq_max_min _ hband]
    exact ⟨le_max_left _ _, max_le hband (min_le_right _ _)⟩
  · exact clamp_mono hv.band (entry_mono hv c hab)
  · obtain ⟨a, h⟩ := exec_rssi_local (i := .rssi c raw) rfl s'.cfg
    exact ⟨conclude a s, conclude a s', h s hcfg, h s' rfl, rfl⟩

/-- Settles O27: the estimate is a signed byte, which `tc8` gives back as it is. -/
theorem rssiReadsTheClampedEntry : Obligations.RssiReadsTheClampedEntry := by
  refine ⟨fun w hw => ?_, fun s c raw => ?_, fun _ _ => rfl⟩
  · obtain ⟨_, _, _, _, _, _, _, _, _, hrssi, _⟩ := commandWordsDecodeByTheirFields w
    exact hrssi hw
  · obtain ⟨e, he⟩ := exists_toInt_eq_estimate s.cfg raw c
    refine ⟨e, he, congrArg Host.Outcome.next ?_⟩
    rw [rssiRead, ← he, tc8_toInt, byteWord_eq_setWidth]
    rfl

end Sys2Proof.Machine
end

section
/-! SUPPORT and PROOFS. The system operations (R170 to R174): RESET, the status reads TXSTAT and
FAULTS, and the reserved operation codes. -/

namespace Sys2Proof.Machine

/-! ## RESET -/

/-- Settles O9: the cleared registers are all 0, and by the first tests of `txNeed` and of the
verdict no payload byte is due and the run is empty. -/
theorem resetClearsEveryRegister : Obligations.ResetClearsEveryRegister := by
  refine ⟨fun w hw => ?_, fun s => ⟨rfl, fun t ht => ?_⟩⟩
  · obtain ⟨hreset, _⟩ := commandWordsDecodeByTheirFields w
    exact hreset hw
  · cases ht
    exact ⟨rfl, decodeErrorOf_eq_iff.2 (.inl rfl), fun _ => rfl⟩

/-! ## TXSTAT -/

/-- R19 and R94: where the next TXSTEP consumes its operand. -/
theorem txNeed_eq_true_iff {tx : Tx} : txNeed tx = true ↔
    tx.active = true ∧ 5 ≤ tx.idx.toNat ∧ tx.idx.toNat < 5 + tx.len.toNat := by
  simp only [txNeed, Bool.and_eq_true, decide_eq_true_eq, and_assoc]

/-- The result word of `TXSTAT` as a number (R75). -/
theorem txstatWord_toNat (tx : Tx) : (txstatWord tx).toNat = tx.idx.toNat
    + (if tx.active = true then 2 ^ 17 else 0) + (if txNeed tx = true then 2 ^ 18 else 0) := by
  rw [txstatWord, toNat_append_add, toNat_append_add, toNat_append_add]
  cases tx.active <;> cases txNeed tx <;> simp <;> omega

/-- An idle unit at index 0 reads as 0 (R171). -/
theorem txstatWord_of_idle {tx : Tx} (hidle : tx.active = false) (hidx : tx.idx = 0) :
    txstatWord tx = 0 := by
  apply BitVec.eq_of_toNat_eq
  have hneed : ¬ txNeed tx = true := by simp [txNeed_eq_true_iff, hidle]
  rw [txstatWord_toNat, if_neg hneed, hidle, hidx]
  rfl

/-- Settles O14: TXSTAT's word as a number; idle, the invariant of R12 puts the index at 0. -/
theorem txstatReadsTheTransmitStatus : Obligations.TxstatReadsTheTransmitStatus := by
  refine ⟨fun w hw => ?_, fun s => ⟨txstatWord s.tx, rfl, ?_⟩, fun s hs hidle => ?_⟩
  · obtain ⟨_, _, _, hstat, _⟩ := commandWordsDecodeByTheirFields w
    exact hstat hw
  · simp only [txstatWord_toNat, txNeed_eq_true_iff]
  · exact congrArg (fun r => Host.Outcome.next (answer r s))
      (txstatWord_of_idle hidle (hs.tx.idle hidle))

/-! ## FAULTS -/

theorem faultsWord_toNat (f : BitVec 5) : (faultsWord f).toNat = f.toNat := by
  rw [faultsWord, toNat_append_add]
  simp

/-- Settles O29: FAULTS's word is the register with zeros above it. -/
theorem faultsReadsTheStickyRegister : Obligations.FaultsReadsTheStickyRegister := by
  refine ⟨fun w hw => ?_, fun s => ⟨faultsWord s.faults, rfl, faultsWord_toNat s.faults⟩⟩
  obtain ⟨_, _, _, _, _, _, _, _, _, _, hfaults, _⟩ := commandWordsDecodeByTheirFields w
  exact hfaults hw

/-! ## The reserved codes -/

/-- The reserved operation codes one by one (R78). -/
theorem reservedCode_cases : ∀ op : BitVec 4, 0xB ≤ op.toNat →
    op = 0xB ∨ op = 0xC ∨ op = 0xD ∨ op = 0xE ∨ op = 0xF := by
  decide

/-- Settles O30: each of the five codes has its instruction, and each raises `F_ILLEGAL_OP`. -/
theorem reservedCodesFault : Obligations.ReservedCodesFault := by
  refine ⟨fun w hw => ?_, fun s i hi => ?_⟩
  · obtain ⟨_, _, _, _, _, _, _, _, _, _, _, hB, hC, hD, hE, hF⟩ :=
      commandWordsDecodeByTheirFields w
    rcases reservedCode_cases _ hw with h | h | h | h | h
    · simp [hB h]
    · simp [hC h]
    · simp [hD h]
    · simp [hE h]
    · simp [hF h]
  · simp only [List.mem_cons, List.not_mem_nil, or_false] at hi
    rcases hi with rfl | rfl | rfl | rfl | rfl <;> rfl

end Sys2Proof.Machine
end

section
/-! SUPPORT and PROOFS. The faults (R20, R190, R191): which fault an operation raises as a function
of the operation and the state, the one lemma that says how a host operation ends, and the
independence of every operation but FAULTS from the fault bits. -/

namespace Sys2Proof.Machine

/-! ## The list of fault causes -/

/-- The fault that a host operation raises in a state (R191); none where it answers ok, and none
for a frame, which is a sequence of host operations (R81). -/
def faultOf (s : State) : Instr → Option FaultFlag
  | .reservedB | .reservedC | .reservedD | .reservedE | .reservedF => some .illegalOp
  | .txbegin _ _ => if s.tx.active then some .txBusy else none
  | .txstep _ => if s.tx.active then none else some .txIdle
  | .rxhdr => if verdict s = none then none else some .rxInvalid
  | .rxget k => if verdict s = none ∧ k.toNat < s.rx.len.toNat then none else some .rxInvalid
  | .rssiCurve3 _ => some .badCurve
  | .reset | .txstat | .rxpush _ | .rxclr | .rxstat | .faults | .rssi _ _ => none
  | .frameInventory _ _ | .frameMultiPoll _ _ | .frameStopMulti _ _ | .frameSelect _ _
  | .frameRead _ _ | .frameWrite _ _ | .frameError _ _ | .frameOther _ _ _ => none

section causes
variable {s : State} {i : Instr}

theorem faultOf_eq_illegalOp_iff : faultOf s i = some .illegalOp ↔
    i ∈ [Instr.reservedB, .reservedC, .reservedD, .reservedE, .reservedF] := by
  cases i <;> simp [faultOf]

theorem faultOf_eq_txBusy_iff : faultOf s i = some .txBusy ↔
    (∃ c l, i = .txbegin c l) ∧ s.tx.active = true := by
  cases i <;> simp [faultOf]

theorem faultOf_eq_txIdle_iff : faultOf s i = some .txIdle ↔
    (∃ d, i = .txstep d) ∧ s.tx.active = false := by
  cases i <;> simp [faultOf]

theorem faultOf_eq_rxInvalid_iff : faultOf s i = some .rxInvalid ↔
    (i = .rxhdr ∧ verdict s ≠ none) ∨
      ∃ k, i = .rxget k ∧ (verdict s ≠ none ∨ s.rx.len.toNat ≤ k.toNat) := by
  cases i
  case rxget k => simp [faultOf, imp_iff_not_or]
  all_goals simp [faultOf]

theorem faultOf_eq_badCurve_iff : faultOf s i = some .badCurve ↔ ∃ raw, i = .rssiCurve3 raw := by
  cases i <;> simp [faultOf]

end causes

/-! ## How a host operation ends -/

/-- A host operation raises the fault of its cause and does nothing else, or it has none and ends
with a result word, `faults` being cleared by RESET and kept by every other operation (R190). -/
theorem exec_host_outcome {i : Instr} (hi : i.isHostOp = true) (s : State) :
    (∃ f, faultOf s i = some f ∧ exec i s = .next (raise f s)) ∨
    (faultOf s i = none ∧ ∃ r u, exec i s = .next (answer r u) ∧
      u.faults = if i = .reset then 0 else s.faults) := by
  cases i <;> simp only [Instr.isHostOp, Bool.false_eq_true] at hi
  case txbegin c l =>
    rcases txBegin_cases c l s with ⟨ha, e⟩ | ⟨ha, e⟩
    · exact .inl ⟨_, if_pos ha, congrArg Host.Outcome.next e⟩
    · exact .inr ⟨if_neg (by simp [ha]), _, _, congrArg Host.Outcome.next e, rfl⟩
  case txstep d =>
    rcases txStep_cases d s with ⟨ha, e⟩ | ⟨ha, e⟩
    · exact .inl ⟨_, if_neg (by simp [ha]), congrArg Host.Outcome.next e⟩
    · exact .inr ⟨if_pos ha, _, _, congrArg Host.Outcome.next e, rfl⟩
  case rxhdr =>
    rcases rxHdr_cases s with ⟨hv, e⟩ | ⟨hv, e⟩
    · exact .inl ⟨_, if_neg hv, congrArg Host.Outcome.next e⟩
    · exact .inr ⟨if_pos hv, _, _, congrArg Host.Outcome.next e, rfl⟩
  case rxget k =>
    rcases rxGet_cases k s with ⟨h, e⟩ | ⟨hv, hk, e⟩
    · exact .inl ⟨_, if_neg fun ⟨hv, hk⟩ => h.elim (· hv) (Nat.not_le.2 hk),
        congrArg Host.Outcome.next e⟩
    · exact .inr ⟨if_pos ⟨hv, hk⟩, _, _, congrArg Host.Outcome.next e, rfl⟩
  case reservedB | reservedC | reservedD | reservedE | reservedF | rssiCurve3 =>
    exact .inl ⟨_, rfl, rfl⟩
  all_goals exact .inr ⟨rfl, _, _, rfl, rfl⟩

/-- The answer is a fault exactly if the operation has that fault's cause. -/
theorem exec_host_fault_iff {i : Instr} (hi : i.isHostOp = true) (s : State) :
    ∃ t, exec i s = .next t ∧ ∀ f, t.answers = [.fault f] ↔ faultOf s i = some f := by
  rcases exec_host_outcome hi s with ⟨g, hg, h⟩ | ⟨hnone, r, u, h, _⟩
  · exact ⟨_, h, fun f => by simp [hg]⟩
  · exact ⟨_, h, fun f => by simp [hnone]⟩

/-- Settles O31: the cause of each fault is its line of the list. -/
theorem faultCausesAreComplete : Obligations.FaultCausesAreComplete := by
  intro s i hi
  obtain ⟨t, ht, hfault⟩ := exec_host_fault_iff hi s
  exact ⟨t, ht, (hfault _).trans faultOf_eq_illegalOp_iff, (hfault _).trans faultOf_eq_txBusy_iff,
    (hfault _).trans faultOf_eq_txIdle_iff, (hfault _).trans faultOf_eq_rxInvalid_iff,
    (hfault _).trans faultOf_eq_badCurve_iff⟩

/-! ## Precise and sticky -/

/-- An operation that answers with a fault has only raised it (R190). -/
theorem eq_raise_of_answers {i : Instr} (hi : i.isHostOp = true) {s t : State}
    (h : exec i s = .next t) {f : FaultFlag} (hf : t.answers = [.fault f]) : t = raise f s := by
  rcases exec_host_outcome hi s with ⟨g, _, e⟩ | ⟨_, r, u, e, _⟩ <;>
    obtain rfl := Host.Outcome.next.inj (h.symm.trans e)
  · cases hf
    rfl
  · cases hf

/-- An operation that answers ok leaves `faults` as it was, unless it is RESET (R190). -/
theorem faults_eq_of_answers_ok {i : Instr} (hi : i.isHostOp = true) (hr : i ≠ .reset)
    {s t : State} (h : exec i s = .next t) {r : Word} (hok : t.answers = [.ok r]) :
    t.faults = s.faults := by
  rcases exec_host_outcome hi s with ⟨g, _, e⟩ | ⟨_, r, u, e, hu⟩ <;>
    obtain rfl := Host.Outcome.next.inj (h.symm.trans e)
  · cases hok
  · rwa [if_neg hr] at hu

/-- A host operation other than FAULTS does not read `faults`: whatever the bits hold, it leaves
the same answer and the same state beside them (R190). -/
theorem exec_host_ignores_faults {i : Instr} (hi : i.isHostOp = true) (hf : i ≠ .faults)
    (s : State) (g : BitVec 5) :
    ∃ t g', exec i s = .next t ∧ exec i { s with faults := g } = .next { t with faults := g' } := by
  cases hv : i.unit? with
  | some v =>
    cases v with
    | tx =>
      obtain ⟨tx, a, h⟩ := exec_tx_local hv s.cfg s.tx
      exact ⟨_, _, h s rfl rfl, h _ rfl rfl⟩
    | rx =>
      obtain ⟨rx, m, a, h⟩ := exec_rx_local hv s.cfg s.rx s.pay
      exact ⟨_, _, h s rfl rfl rfl, h _ rfl rfl rfl⟩
    | rssi =>
      obtain ⟨a, h⟩ := exec_rssi_local hv s.cfg
      exact ⟨_, _, h s rfl, h _ rfl⟩
  | none =>
    cases i <;> simp only [Instr.isHostOp, Bool.false_eq_true] at hi
    case faults => exact absurd rfl hf
    case reset | reservedB | reservedC | reservedD | reservedE | reservedF =>
      exact ⟨_, _, rfl, rfl⟩
    all_goals cases hv

/-- Settles O32: a fault is `raise` and nothing else, an ok answer keeps the bits, and no operation
but FAULTS reads them. -/
theorem faultsArePreciseAndSticky : Obligations.FaultsArePreciseAndSticky := by
  intro s t i hi h
  have hprecise : ∀ f, t.answers = [.fault f] →
      t = { s with faults := s.faults ||| faultBit f, answers := t.answers } := fun f hf => by
    obtain rfl := eq_raise_of_answers hi h hf
    rfl
  refine ⟨hprecise _, hprecise _, hprecise _, hprecise _, hprecise _,
    fun ⟨_, hok⟩ hr => faults_eq_of_answers_ok hi hr h hok, ?_, fun hf g => ?_⟩
  · rintro rfl
    cases h
    rfl
  · obtain ⟨u, g', hu, hg⟩ := exec_host_ignores_faults hi hf s g
    obtain rfl := Host.Outcome.next.inj (h.symm.trans hu)
    exact ⟨_, hg, rfl, rfl⟩

end Sys2Proof.Machine
end

section
/-! SUPPORT and PROOFS. The state right after power-up (R210, R211): the values of its registers,
and the constraints of R4, which the free configuration meets by its construction (log entry 2). -/

namespace Sys2Proof

/-! ## The free configuration obeys R4 -/

theorem signedMin_toInt (a b : Byte) : (Config.signedMin a b).toInt = min a.toInt b.toInt :=
  apply_ite BitVec.toInt _ a b

theorem signedMax_toInt (a b : Byte) : (Config.signedMax a b).toInt = max a.toInt b.toInt :=
  apply_ite BitVec.toInt _ b a

theorem rising_le_succ (f : Nat → Byte) (n : Nat) :
    (Config.rising f n).toInt ≤ (Config.rising f (n + 1)).toInt := by
  rw [Config.rising, signedMax_toInt]
  exact le_max_left _ _

/-- The tables are built by curve number, which is the select code (R22, R77). -/
theorem table_hardwired (c : Curve) :
    Config.hardwired.table c = Config.risingTable c.select.toNat := by
  cases c <;> rfl

theorem entry_hardwired (c : Curve) (r : Byte) : Config.hardwired.entry c r =
    (Config.rising (Config.openEntry c.select.toNat) r.toNat).toInt := by
  simp only [Config.entry, table_hardwired, Config.risingTable, Vector.getElem_ofFn]

/-- The seven codes are the images of seven different numbers under one permutation. -/
theorem commands_hardwired :
    Config.hardwired.commands = [0, 1, 2, 3, 4, 5, 6].map Config.openCommand := rfl

theorem valid_hardwired : Config.hardwired.Valid where
  commandsDistinct := by
    rw [commands_hardwired]
    exact List.Nodup.map Config.openCommand.injective (by decide)
  band := by
    change (Config.signedMin _ _).toInt ≤ (Config.signedMax _ _).toInt
    rw [signedMin_toInt, signedMax_toInt]
    exact min_le_max
  monotone c r hr := by
    have hsucc : (r + 1).toNat = r.toNat + 1 := BitVec.toNat_add_of_lt (Nat.succ_lt_succ hr)
    rw [entry_hardwired, entry_hardwired, hsucc]
    exact rising_le_succ _ _

namespace Machine

/-! ## After power-up -/

/-- Settles O53: the free configuration is valid, no cell of `rx_pay` is listed, and both units
are cleared. -/
theorem resetMeetsTheInvariant : Obligations.ResetMeetsTheInvariant where
  cfg := valid_hardwired
  pay := Memory.wf_nil
  tx := Tx.inv_cleared
  rx := Rx.inv_cleared []

/-- Settles O8: both units start cleared, so the run is empty and its verdict Incomplete by the
first test; RESET clears the same registers (R170). -/
theorem resetValuesAreThoseOfTheTable : Obligations.ResetValuesAreThoseOfTheTable := by
  refine ⟨⟨rfl, rfl, rfl, rfl, rfl, rfl⟩,
    ⟨rfl, rfl, rfl, rfl, rfl, rfl, rfl, rfl, decodeErrorOf_eq_iff.2 (.inl rfl)⟩, rfl, fun s => ?_⟩
  obtain ⟨_, hexec⟩ := resetClearsEveryRegister
  exact ⟨_, (hexec s).1, rfl, rfl, rfl, rfl, rfl⟩

end Machine

end Sys2Proof
end

section
/-! SUPPORT and PROOFS. The words of the opcode table (log entry 9): a 32-bit table word is a
command word, and the request that `withFetchWord` places is the next one performed. -/

namespace Sys2Proof

/-- At 32 bits a table word is the command word of its number; `BitVec.ofNat` drops the bits above
by itself. -/
theorem tableRequest_32 (cfg : Config) (w : Nat) :
    tableRequest cfg 32 w = .word (BitVec.ofNat 32 w) := by
  have hmod : BitVec.ofNat 32 (w % 2 ^ 32) = BitVec.ofNat 32 w :=
    BitVec.eq_of_toNat_eq (Nat.mod_mod w (2 ^ 32))
  rw [tableRequest, if_pos le_rfl, hmod]

theorem decodeTableWord_32 (w : Nat) :
    decodeTableWord 32 w = some (decodeWord (BitVec.ofNat 32 w)) := by
  rw [decodeTableWord, tableRequest_32, decodeRequest]

namespace Machine

/-- A placed request that decodes is performed next, at the state it was placed on (R50). -/
theorem step_placeRequest {s : State} {r : Request} {i : Instr}
    (h : decodeRequest s.cfg r = .ok i) : step (placeRequest r s) = exec i s :=
  stepRunsTheDecodedInstruction.1 (placeRequest r s) r s.port i rfl h

/-- Settles O7: a 32-bit table word is a command word, which decodes under every configuration, so
neither the decoding nor the step needs the bound on `w`. -/
theorem fetchWordIsRunNext : Obligations.FetchWordIsRunNext := fun s w _ => by
  refine ⟨decodeTableWord_32 w, ?_⟩
  rw [State.withFetchWord, tableRequest_32]
  exact step_placeRequest rfl

end Machine

end Sys2Proof
end
